-- ==== Sys2Proof/Word.lean ====
section
/-!
DEFINITION. The words of FAU-25519: the modulus q, field elements, bytes, command words, register indices.
-/

namespace Sys2Proof

/-- The modulus q = 2^255 - 19 (R2). -/
def q : Nat := 2 ^ 255 - 19

theorem q_pos : 0 < q := by decide

/-- A field element: its canonical representative, an integer in [0, q) (R14, R24). -/
abbrev Fq := Fin q

/-- One byte of the I/O buffer (R50). -/
abbrev Byte := BitVec 8

/-- A command word (R70). -/
abbrev CmdWord := BitVec 32

/-- The index of a field register, f0 to f15 (R23, R73). -/
abbrev Reg := Fin 16

/-- The index k of a constant ROM entry as LDK carries it: four unsigned bits (R73). -/
abbrev ConstIndex := Fin 16

end Sys2Proof
end

