-- ==== Sys2Proof/Machine/Field.lean ====
section
/-!
DEFINITION. Exact arithmetic reduced mod q, exponentiation, and little-endian bytes (R11).
-/

namespace Sys2Proof.Machine

/-- modq(v): the unique r in [0, q) with r ≡ v (mod q), for any integer v, negative v included (R11). -/
def modq (v : Int) : Fq :=
  ⟨(v % (q : Int)).toNat, by
    have h : (0 : Int) < (q : Int) := by exact_mod_cast q_pos
    have h1 := Int.emod_nonneg v h.ne'
    have h2 := Int.emod_lt_of_pos v h
    omega⟩

/-- The integer a register's value is: an unsigned one (R10). -/
def toInt (a : Fq) : Int := (a.val : Int)

/-- a ⊕ b (R11). -/
def addq (a b : Fq) : Fq := modq (toInt a + toInt b)

/-- a ⊖ b (R11). -/
def subq (a b : Fq) : Fq := modq (toInt a - toInt b)

/-- a ⊗ b (R11). -/
def mulq (a b : Fq) : Fq := modq (toInt a * toInt b)

/-- a^e mod m for e < 2^fuel, by squaring and multiplying from the top bit of e down. Any chain is conforming (R141; log 13). -/
def powMod (m a : Nat) : (fuel : Nat) → (e : Nat) → Nat
  | 0, _ => 1 % m
  | fuel + 1, e =>
    let half := powMod m a fuel (e / 2)
    if e % 2 = 1 then (half * half % m) * a % m else half * half % m

/-- pow(a, e) = modq(a^e), for 1 ≤ e < 2^256 (R11). -/
def powq (a : Fq) (e : Nat) : Fq := modq ((powMod q a.val 256 e : Nat) : Int)

/-- The inversion exponent q - 2 (R31). -/
def invExponent : Nat := q - 2

/-- The square-root exponent (q - 5)/8 (R31). -/
def sqrtExponent : Nat := (q - 5) / 8

/-- LE(B): the value of a little-endian byte sequence (R11, R53). -/
def leValue : List Byte → Nat
  | [] => 0
  | b :: bs => b.toNat + 256 * leValue bs

/-- LEbytes(v, n): the n bytes of v, least significant first (R11). -/
def leBytes : (n : Nat) → (v : Nat) → List Byte
  | 0, _ => []
  | n + 1, v => BitVec.ofNat 8 v :: leBytes n (v / 256)

end Sys2Proof.Machine
end

