-- ==== Sys2Proof/Syntax.lean ====
section
/-!
DEFINITION. The commands of FAU-25519: one constructor per row of the opcode map (R74), with the operands of its form (R72).
-/

namespace Sys2Proof

inductive Instr where
  | add (rd ra rb : Reg)
  | sub (rd ra rb : Reg)
  | mul (rd ra rb : Reg)
  | sqr (rd ra : Reg)
  | neg (rd ra : Reg)
  | mov (rd ra : Reg)
  | ldk (rd : Reg) (k : ConstIndex)
  | inv (rd ra : Reg)
  | powq58 (rd ra : Reg)
  | sqrt (rd ra : Reg)
  | dec (rd : Reg)
  | enc (ra : Reg)
  | eq (ra rb : Reg)
  | isneg (ra : Reg)
  deriving DecidableEq, Repr

/-- The mnemonics of the opcode map (R74). -/
inductive Op where
  | add | sub | mul | sqr | neg | mov | ldk | inv | powq58 | sqrt | dec | enc | eq | isneg
  deriving DecidableEq, Repr

/-- The operand forms (R72). -/
inductive Form where
  | rrr | rr | rk | rd | rs | pp
  deriving DecidableEq, Repr

/-- The form of each mnemonic (R72, R74). -/
def Op.form : Op → Form
  | .add => .rrr
  | .sub => .rrr
  | .mul => .rrr
  | .sqr => .rr
  | .neg => .rr
  | .mov => .rr
  | .ldk => .rk
  | .inv => .rr
  | .powq58 => .rr
  | .sqrt => .rr
  | .dec => .rd
  | .enc => .rs
  | .eq => .pp
  | .isneg => .rs

/-- The mnemonic of a command. -/
def Instr.op : Instr → Op
  | .add _ _ _ => .add
  | .sub _ _ _ => .sub
  | .mul _ _ _ => .mul
  | .sqr _ _ => .sqr
  | .neg _ _ => .neg
  | .mov _ _ => .mov
  | .ldk _ _ => .ldk
  | .inv _ _ => .inv
  | .powq58 _ _ => .powq58
  | .sqrt _ _ => .sqrt
  | .dec _ => .dec
  | .enc _ => .enc
  | .eq _ _ => .eq
  | .isneg _ => .isneg

/-- The registers a command reads, in the order it reads them: ra before rb (R13, R202). -/
def Instr.sources : Instr → List Reg
  | .add _ ra rb => [ra, rb]
  | .sub _ ra rb => [ra, rb]
  | .mul _ ra rb => [ra, rb]
  | .sqr _ ra => [ra]
  | .neg _ ra => [ra]
  | .mov _ ra => [ra]
  | .ldk _ _ => []
  | .inv _ ra => [ra]
  | .powq58 _ ra => [ra]
  | .sqrt _ ra => [ra]
  | .dec _ => []
  | .enc ra => [ra]
  | .eq ra rb => [ra, rb]
  | .isneg ra => [ra]

/-- The register a command writes, if it writes one (R26). -/
def Instr.dest : Instr → Option Reg
  | .add rd _ _ => some rd
  | .sub rd _ _ => some rd
  | .mul rd _ _ => some rd
  | .sqr rd _ => some rd
  | .neg rd _ => some rd
  | .mov rd _ => some rd
  | .ldk rd _ => some rd
  | .inv rd _ => some rd
  | .powq58 rd _ => some rd
  | .sqrt rd _ => some rd
  | .dec rd => some rd
  | .enc _ => none
  | .eq _ _ => none
  | .isneg _ => none

end Sys2Proof
end

