-- ==== Sys2Proof/WellFormed.lean ====
section
/-!
DEFINITION. Which commands the encoding can carry as legal words. Register indices are four bits wide by their type; the
one check left is LDK's constant index (R73, R75 condition 4).
-/

namespace Sys2Proof

/-- The check of one command: k must be in 0 to 6 (R73). -/
def Instr.wellFormed : Instr → Bool
  | .add _ _ _ => true
  | .sub _ _ _ => true
  | .mul _ _ _ => true
  | .sqr _ _ => true
  | .neg _ _ => true
  | .mov _ _ => true
  | .ldk _ k => decide (k.val ≤ 6)
  | .inv _ _ => true
  | .powq58 _ _ => true
  | .sqrt _ _ => true
  | .dec _ => true
  | .enc _ => true
  | .eq _ _ => true
  | .isneg _ => true

abbrev WellFormed (i : Instr) : Prop := i.wellFormed = true

end Sys2Proof
end

