-- ==== Sys2Proof/Decode.lean ====
section
/-!
DEFINITION. The command word: its fields (R70), the decoder (R74 to R76), then the encoder (R70), and the reading of a table word.
-/

namespace Sys2Proof

/-- op, bits 31:24 (R70). -/
def opField (w : CmdWord) : BitVec 8 := w.extractLsb' 24 8

/-- rd, bits 23:20 (R70). -/
def rdField (w : CmdWord) : BitVec 4 := w.extractLsb' 20 4

/-- ra, or k for LDK, bits 19:16 (R70). -/
def raField (w : CmdWord) : BitVec 4 := w.extractLsb' 16 4

/-- rb, bits 15:12 (R70). -/
def rbField (w : CmdWord) : BitVec 4 := w.extractLsb' 12 4

/-- The reserved field, bits 11:0 (R70). -/
def zeroField (w : CmdWord) : BitVec 12 := w.extractLsb' 0 12

/-- The opcode of each mnemonic (R74). -/
def Op.code : Op → BitVec 8
  | .add => 0x01
  | .sub => 0x02
  | .mul => 0x03
  | .sqr => 0x04
  | .neg => 0x05
  | .mov => 0x06
  | .ldk => 0x07
  | .inv => 0x08
  | .powq58 => 0x09
  | .sqrt => 0x0A
  | .dec => 0x10
  | .enc => 0x11
  | .eq => 0x18
  | .isneg => 0x19

/-- The rows of the opcode map, in its order (R74). -/
def opcodeMap : List Op :=
  [.add, .sub, .mul, .sqr, .neg, .mov, .ldk, .inv, .powq58, .sqrt, .dec, .enc, .eq, .isneg]

/-- The mnemonic an opcode names, if it is one of the map (R74, R75 condition 1). -/
def opOfCode (c : BitVec 8) : Option Op := opcodeMap.find? fun o => o.code == c

/-- The match column of the opcode map (R74). -/
def Op.rowMatch : Op → CmdWord
  | .add => 0x01000000
  | .sub => 0x02000000
  | .mul => 0x03000000
  | .sqr => 0x04000000
  | .neg => 0x05000000
  | .mov => 0x06000000
  | .ldk => 0x07000000
  | .inv => 0x08000000
  | .powq58 => 0x09000000
  | .sqrt => 0x0A000000
  | .dec => 0x10000000
  | .enc => 0x11000000
  | .eq => 0x18000000
  | .isneg => 0x19000000

/-- The mask column of the opcode map (R74). -/
def Op.rowMask : Op → CmdWord
  | .add => 0xFF000FFF
  | .sub => 0xFF000FFF
  | .mul => 0xFF000FFF
  | .sqr => 0xFF00FFFF
  | .neg => 0xFF00FFFF
  | .mov => 0xFF00FFFF
  | .ldk => 0xFF00FFFF
  | .inv => 0xFF00FFFF
  | .powq58 => 0xFF00FFFF
  | .sqrt => 0xFF00FFFF
  | .dec => 0xFF0FFFFF
  | .enc => 0xFFF0FFFF
  | .eq => 0xFFF00FFF
  | .isneg => 0xFFF0FFFF

/-- Why a word is no command: the four conditions of R75, in their order. -/
inductive DecodeError where
  | unknownOpcode
  | reservedBits
  | unusedField
  | constIndex
  deriving DecidableEq, Repr

/-- The fields a form leaves unused, which must be 0 (R72). -/
def Form.unusedZero (w : CmdWord) : Form → Bool
  | .rrr => true
  | .rr => rbField w == 0
  | .rk => rbField w == 0
  | .rd => raField w == 0 && rbField w == 0
  | .rs => rdField w == 0 && rbField w == 0
  | .pp => rdField w == 0

/-- A four-bit field as the register or constant it indexes, zext_4 (R73). -/
def indexOf (b : BitVec 4) : Fin 16 := b.toFin

/-- The command of a mnemonic with the operands its form takes from the word (R72). -/
def Op.build (w : CmdWord) : Op → Instr
  | .add => .add (indexOf (rdField w)) (indexOf (raField w)) (indexOf (rbField w))
  | .sub => .sub (indexOf (rdField w)) (indexOf (raField w)) (indexOf (rbField w))
  | .mul => .mul (indexOf (rdField w)) (indexOf (raField w)) (indexOf (rbField w))
  | .sqr => .sqr (indexOf (rdField w)) (indexOf (raField w))
  | .neg => .neg (indexOf (rdField w)) (indexOf (raField w))
  | .mov => .mov (indexOf (rdField w)) (indexOf (raField w))
  | .ldk => .ldk (indexOf (rdField w)) (indexOf (raField w))
  | .inv => .inv (indexOf (rdField w)) (indexOf (raField w))
  | .powq58 => .powq58 (indexOf (rdField w)) (indexOf (raField w))
  | .sqrt => .sqrt (indexOf (rdField w)) (indexOf (raField w))
  | .dec => .dec (indexOf (rdField w))
  | .enc => .enc (indexOf (raField w))
  | .eq => .eq (indexOf (raField w)) (indexOf (rbField w))
  | .isneg => .isneg (indexOf (raField w))

/-- Decoding, total on every 32-bit word (R76): the word's command, or which condition of R75 makes it illegal. -/
def decode (w : CmdWord) : Except DecodeError Instr :=
  match opOfCode (opField w) with
  | none => .error .unknownOpcode
  | some o =>
    if zeroField w ≠ 0 then .error .reservedBits
    else if o.form.unusedZero w = false then .error .unusedField
    else if (o.build w).wellFormed = false then .error .constIndex
    else .ok (o.build w)

/-- A register or constant index as the four-bit field that carries it (R70). -/
def fieldOf (r : Fin 16) : BitVec 4 := BitVec.ofFin r

/-- (op << 24) | (rd << 20) | (ra << 16) | (rb << 12), the reserved field 0 (R70). -/
def packWord (op : BitVec 8) (rd ra rb : BitVec 4) : CmdWord := op ++ rd ++ ra ++ rb ++ 0#12

/-- The word of a command: the fields its form does not use are 0 (R70, R72). -/
def encode : Instr → CmdWord
  | .add rd ra rb => packWord 0x01 (fieldOf rd) (fieldOf ra) (fieldOf rb)
  | .sub rd ra rb => packWord 0x02 (fieldOf rd) (fieldOf ra) (fieldOf rb)
  | .mul rd ra rb => packWord 0x03 (fieldOf rd) (fieldOf ra) (fieldOf rb)
  | .sqr rd ra => packWord 0x04 (fieldOf rd) (fieldOf ra) 0
  | .neg rd ra => packWord 0x05 (fieldOf rd) (fieldOf ra) 0
  | .mov rd ra => packWord 0x06 (fieldOf rd) (fieldOf ra) 0
  | .ldk rd k => packWord 0x07 (fieldOf rd) (fieldOf k) 0
  | .inv rd ra => packWord 0x08 (fieldOf rd) (fieldOf ra) 0
  | .powq58 rd ra => packWord 0x09 (fieldOf rd) (fieldOf ra) 0
  | .sqrt rd ra => packWord 0x0A (fieldOf rd) (fieldOf ra) 0
  | .dec rd => packWord 0x10 (fieldOf rd) 0 0
  | .enc ra => packWord 0x11 0 (fieldOf ra) 0
  | .eq ra rb => packWord 0x18 0 (fieldOf ra) (fieldOf rb)
  | .isneg ra => packWord 0x19 0 (fieldOf ra) 0

/-- The command word whose low nbits bits are those of w and whose other bits are 0. A command is one 32-bit word, written
whole to CMD, so no byte order enters (R54, R71). -/
def wordOfTable (nbits w : Nat) : CmdWord := BitVec.ofNat 32 (w % 2 ^ nbits)

/-- What the decoder reads from a table row's word (none where it refuses, or where the row is wider than a command). -/
def decodeTableWord (nbits w : Nat) : Option Instr :=
  if nbits ≤ 32 then
    match decode (wordOfTable nbits w) with
    | .ok i => some i
    | .error _ => none
  else none

end Sys2Proof
end

