-- ==== Sys2Proof/Config.lean ====
section
/-!
DEFINITION. What one FAU fixes and the spec leaves OPEN (R9), and the free values: none has a body, so nothing can be
proved about its value.
-/

namespace Sys2Proof

/-- Which 64-byte block of the host's address space holds the window (R52; log 3). -/
opaque Config.fauBlock : Nat

/-- FAU_BASE: any 64-byte-aligned host address (R52; log 3). -/
def Config.fauBase : Nat := 64 * Config.fauBlock

/-- What LATENCY(op) exceeds one unit of time by (R237; log 7). -/
opaque Config.latencyBeyondOne : BitVec 8 → Nat

/-- LATENCY(op): a positive time that is a function of the opcode alone (R236, R237). No rule uses it (log 7). -/
def Config.latency (op : BitVec 8) : Nat := Config.latencyBeyondOne op + 1

/-- The free draw number n: what a host read of an unwritten BUF byte returns (R60, I4; log 4). -/
opaque Config.freeByte : Nat → Byte

end Sys2Proof
end

