-- ==== Sys2Proof/Machine/State.lean ====
section
/-!
DEFINITION. The state of the FAU (R21), the host's events (R20, R51), why a step can stop, and the state after reset (R41).
-/

namespace Sys2Proof.Machine

/-- STATUS.FCAUSE (R32, R200). The codes 4 to 15 are never produced (I7), so no constructor stands for them. -/
inductive FCause where
  | noFault
  | illegalCmd
  | uninitReg
  | uninitBuf
  deriving DecidableEq, Repr

/-- The fields of STATUS (R32). The host cannot write it and bits 31:12 read as 0, so the fields are all it holds (log 10). -/
structure Status where
  res : Bool
  sign : Bool
  noroot : Bool
  fault : Bool
  fcause : FCause
  freg : Reg
  deriving DecidableEq, Repr

/-- The written BUF bytes as (buffer offset, byte) cells, offsets rising; an offset that is not listed is unwritten (R50; log 11). -/
abbrev Memory := List Host.Cell

/-- One event of the host's total order (R62): an access to the window at an offset from FAU_BASE (R51), or the reset
input set to a level (R230). -/
inductive HostEvent where
  | read8 (off : Fin 64)
  | read16 (off : Fin 64)
  | read32 (off : Fin 64)
  | write8 (off : Fin 64) (b : BitVec 8)
  | write16 (off : Fin 64) (h : BitVec 16)
  | write32 (off : Fin 64) (w : BitVec 32)
  | resetLine (asserted : Bool)
  deriving DecidableEq, Repr

/-- What a host read returns: a byte or a word, as wide as the access (R55). -/
inductive ReadData where
  | byte (b : BitVec 8)
  | word (w : BitVec 32)
  deriving DecidableEq, Repr

/-- The FAU's state (R21), with the model's own fields: the host events still to come, the reset line, the last read's data
and the count of free draws (logs 1, 2, 4, 5). -/
structure State where
  f : Vector (Option Fq) 16
  status : Status
  fcmd : BitVec 32
  buf : Memory
  resetHeld : Bool
  host : List HostEvent
  readData : Option ReadData
  draws : Nat
  deriving DecidableEq, Repr

/-- Why the model has no next state. -/
inductive Fault where
  /-- Raised by any window access between the assertion and the release of reset: the spec gives no behaviour there and
  treats it as stuck (I18; log 2). Safe. No command raises it. -/
  | resetHeld
  deriving DecidableEq, Repr

/-- What the model gives no meaning. -/
inductive Refusal where
  /-- An instruction without a meaning yet: no arm of exec answers it. Safe. -/
  | notModelled (mnemonic : String)
  /-- Raised by a host access of a wrong width or alignment, which the host must not make (R56, I11; log 8). Unsafe where real
  hardware gives such an access an effect, for a claim that supposes the run goes on. No command raises it. -/
  | hostAccess
  deriving DecidableEq, Repr

/-- What a step or a meaning answers. -/
abbrev Answer := Host.Outcome State Fault Refusal

/-- STATUS after reset: every field 0 (R41). -/
def Status.reset : Status :=
  { res := false, sign := false, noroot := false, fault := false, fcause := .noFault, freg := 0 }

/-- The machine right after reset (R41, R231): every register and every BUF byte unwritten, STATUS = 0, FCMD = 0, idle. -/
def State.reset : State :=
  { f := Vector.replicate 16 none
    status := Status.reset
    fcmd := 0
    buf := []
    resetHeld := false
    host := []
    readData := none
    draws := 0 }

end Sys2Proof.Machine
end

