-- ==== Sys2Proof/Machine/Ops.lean ====
section
/-!
DEFINITION. The named operations over registers and BUF (R12), fault entry (R203), and reset, which alone leaves the faulted
state (R208, R230): the FAU has no return command (R209).
-/

namespace Sys2Proof.Machine

/-- f[i], or none where register i is unwritten (R12, R25). -/
def State.reg (s : State) (i : Reg) : Option Fq := s.f[i.val]

/-- f[i] <- v: the register is then written (R12). -/
def State.writeReg (s : State) (i : Reg) (v : Fq) : State := { s with f := s.f.set i.val (some v) }

/-- f[i] <- ⊥: the register is then unwritten (R12). -/
def State.clearReg (s : State) (i : Reg) : State := { s with f := s.f.set i.val none }

/-- The byte at a buffer offset, or none where it is unwritten (R50). -/
def Memory.read : Memory → Nat → Option Byte
  | [], _ => none
  | (x, y) :: m, a => if x = a then some y else Memory.read m a

/-- Write one byte and mark it written (R58), keeping the offsets rising. -/
def Memory.write : Memory → Nat → Byte → Memory
  | [], a, b => [(a, b)]
  | (x, y) :: m, a, b =>
    if a < x then (a, b) :: (x, y) :: m
    else if a = x then (a, b) :: m
    else (x, y) :: Memory.write m a b

/-- MemRead(a, n), or none where any of the n bytes is unwritten (R12). -/
def Memory.readBytes (m : Memory) : (a n : Nat) → Option (List Byte)
  | _, 0 => some []
  | a, n + 1 =>
    match Memory.read m a, Memory.readBytes m (a + 1) n with
    | some b, some bs => some (b :: bs)
    | _, _ => none

/-- MemWrite(a, n, B), n the length of B (R12). -/
def Memory.writeBytes : Memory → Nat → List Byte → Memory
  | m, _, [] => m
  | m, a, b :: bs => Memory.writeBytes (Memory.write m a b) (a + 1) bs

/-- The offsets of m rise strictly, are at least lo, and are offsets of BUF. -/
def Memory.wfFrom : Nat → Memory → Bool
  | _, [] => true
  | lo, (x, _) :: m => decide (lo ≤ x) && decide (x < 32) && Memory.wfFrom (x + 1) m

/-- The canonical form of BUF: offsets strictly rising, all below 32 (R50; log 11). -/
def Memory.wf (m : Memory) : Bool := Memory.wfFrom 0 m

/-- Set one BUF byte (R58). -/
def State.writeBuf (s : State) (a : Nat) (b : Byte) : State := { s with buf := s.buf.write a b }

/-- Set consecutive BUF bytes (R12). -/
def State.writeBufBytes (s : State) (a : Nat) (bs : List Byte) : State := { s with buf := s.buf.writeBytes a bs }

/-- What a command can raise (R200), with what it says of it. -/
inductive Raised where
  | illegalCmd
  | uninitReg (i : Reg)
  | uninitBuf
  deriving DecidableEq, Repr

/-- code(F) as FCAUSE records it (R200). -/
def Raised.cause : Raised → FCause
  | .illegalCmd => .illegalCmd
  | .uninitReg _ => .uninitReg
  | .uninitBuf => .uninitBuf

/-- What FREG records: the register for UNINIT_REG, else 0 (R203). -/
def Raised.freg : Raised → Reg
  | .illegalCmd => 0
  | .uninitReg i => i
  | .uninitBuf => 0

/-- Fault entry: raise F at a command step with word w writes FAULT, FCAUSE, FREG and FCMD, and nothing else (R203). -/
def State.raise (s : State) (r : Raised) (w : CmdWord) : State :=
  { s with
    status := { s.status with fault := true, fcause := r.cause, freg := r.freg }
    fcmd := w }

/-- The assertion of reset: every piece of the FAU's state takes its reset value (R230, R41). The host's events, its last read
and the count of free draws are not the FAU's (logs 1, 4, 5). -/
def State.assertReset (s : State) : State :=
  { State.reset with resetHeld := true, host := s.host, readData := s.readData, draws := s.draws }

/-- The release of reset: the FAU is idle with its reset values (R231, R232). -/
def State.releaseReset (s : State) : State := { s with resetHeld := false }

/-- The data a host read returns. -/
def State.returns (s : State) (d : ReadData) : State := { s with readData := some d }

end Sys2Proof.Machine
end

