-- ==== Sys2Proof/Machine/Operands.lean ====
section
/-!
DEFINITION. The operand forms (R72): register sources read ra before rb (R13, R202), the constant ROM (R30), the 32 bytes of
BUF (R180). A source that is unwritten raises its fault with the command's word, before any write.
-/

namespace Sys2Proof.Machine

/-- The command's step ends in fault entry (R203), which is a next state: the unit goes on as R208 says. -/
def raises (r : Raised) (w : CmdWord) (s : State) : Answer := .next (s.raise r w)

/-- One register source: UNINIT_REG where it is unwritten (R202), else the command goes on with its value. -/
def withSource (w : CmdWord) (ra : Reg) (s : State) (k : Fq → Answer) : Answer :=
  match s.reg ra with
  | some a => k a
  | none => raises (.uninitReg ra) w s

/-- Two register sources, ra read before rb (R13, R202). -/
def withSources (w : CmdWord) (ra rb : Reg) (s : State) (k : Fq → Fq → Answer) : Answer :=
  withSource w ra s fun a => withSource w rb s fun b => k a b

/-- MemRead(0, 32): UNINIT_BUF where any byte of BUF is unwritten (R12, R204). -/
def withBuffer (w : CmdWord) (s : State) (k : List Byte → Answer) : Answer :=
  match s.buf.readBytes 0 32 with
  | some bs => k bs
  | none => raises .uninitBuf w s

/-- SQRTM1, the square root of -1 that D7 fixes. PRESUMED: the spec takes the value from general knowledge (R30, K1; log 6). -/
def sqrtm1 : Fq := modq 19681161376707505956807079304988542015446066515923890162744021073123829784752

/-- K[k] (R30); the indices 7 to 15 are unassigned. -/
def constant : ConstIndex → Option Fq
  | ⟨0, _⟩ => some (modq 0)
  | ⟨1, _⟩ => some (modq 1)
  | ⟨2, _⟩ => some (modq 2)
  | ⟨3, _⟩ => some (modq 4)
  | ⟨4, _⟩ => some (modq 5)
  | ⟨5, _⟩ => some (modq 8)
  | ⟨6, _⟩ => some sqrtm1
  | _ => none

/-- A constant operand: ILLEGAL_CMD where the index is unassigned (R75 condition 4). The decoder has already refused such a word. -/
def withConstant (w : CmdWord) (k : ConstIndex) (s : State) (go : Fq → Answer) : Answer :=
  match constant k with
  | some c => go c
  | none => raises .illegalCmd w s

end Sys2Proof.Machine
end

