-- ==== Sys2Proof/Machine/Arith.lean ====
section
/-!
DEFINITION. The arithmetic commands ADD, SUB, MUL, SQR, NEG, MOV, LDK (40_field_arith.md). None writes a STATUS field unless it
faults (R103). FCMD's word in a fault is the command's one encoding (log 16).
-/

namespace Sys2Proof.Machine

/-- ADD (R110). -/
def execAdd (rd ra rb : Reg) (s : State) : Answer :=
  withSources (encode (.add rd ra rb)) ra rb s fun a b => .next (s.writeReg rd (addq a b))

/-- SUB (R111). -/
def execSub (rd ra rb : Reg) (s : State) : Answer :=
  withSources (encode (.sub rd ra rb)) ra rb s fun a b => .next (s.writeReg rd (subq a b))

/-- MUL (R112). -/
def execMul (rd ra rb : Reg) (s : State) : Answer :=
  withSources (encode (.mul rd ra rb)) ra rb s fun a b => .next (s.writeReg rd (mulq a b))

/-- SQR (R113). -/
def execSqr (rd ra : Reg) (s : State) : Answer :=
  withSource (encode (.sqr rd ra)) ra s fun a => .next (s.writeReg rd (mulq a a))

/-- NEG (R114): modq(0 - a). -/
def execNeg (rd ra : Reg) (s : State) : Answer :=
  withSource (encode (.neg rd ra)) ra s fun a => .next (s.writeReg rd (modq (0 - toInt a)))

/-- MOV (R115). -/
def execMov (rd ra : Reg) (s : State) : Answer :=
  withSource (encode (.mov rd ra)) ra s fun a => .next (s.writeReg rd a)

/-- LDK (R116). -/
def execLdk (rd : Reg) (k : ConstIndex) (s : State) : Answer :=
  withConstant (encode (.ldk rd k)) k s fun c => .next (s.writeReg rd c)

end Sys2Proof.Machine
end

