-- ==== Sys2Proof/Machine/Flags.lean ====
section
/-!
DEFINITION. The STATUS fields commands write (R32 to R35), how each is computed, and STATUS as the word the host reads.
-/

namespace Sys2Proof.Machine

/-- STATUS.RES <- b (R33). -/
def State.setRes (s : State) (b : Bool) : State := { s with status := { s.status with res := b } }

/-- STATUS.SIGN <- b (R34). -/
def State.setSign (s : State) (b : Bool) : State := { s with status := { s.status with sign := b } }

/-- STATUS.NOROOT <- b (R35). -/
def State.setNoroot (s : State) (b : Bool) : State := { s with status := { s.status with noroot := b } }

/-- The OR of the XORs of two byte sequences, over every byte and with no early exit (R170). -/
def diffBytes (a b : List Byte) : Byte := (List.zipWith (· ^^^ ·) a b).foldl (· ||| ·) 0

/-- EQ's result: the canonical encodings differ in no bit (R170). -/
def equalFlag (a b : Fq) : Bool := diffBytes (leBytes 32 a.val) (leBytes 32 b.val) == 0

/-- ISNEG's result: bit 0 of the canonical representative (R171). -/
def negativeFlag (a : Fq) : Bool := a.val.testBit 0

/-- DEC's sign flag: bit 255 of the 32 bytes read (R180). -/
def signFlag (v : Nat) : Bool := v.testBit 255

/-- FCAUSE's codes (R32). -/
def FCause.code : FCause → BitVec 4
  | .noFault => 0
  | .illegalCmd => 1
  | .uninitReg => 2
  | .uninitBuf => 3

/-- STATUS as a 32-bit word: RES bit 0, SIGN bit 1, NOROOT bit 2, FAULT bit 3, FCAUSE 7:4, FREG 11:8, the rest 0 (R32). -/
def Status.word (t : Status) : BitVec 32 :=
  0#20 ++ fieldOf t.freg ++ t.fcause.code ++ BitVec.ofBool t.fault ++ BitVec.ofBool t.noroot ++ BitVec.ofBool t.sign
    ++ BitVec.ofBool t.res

end Sys2Proof.Machine
end

