-- ==== Sys2Proof/Machine/Codec.lean ====
section
/-!
DEFINITION. The byte codec commands DEC and ENC (43_byte_codec.md).
-/

namespace Sys2Proof.Machine

/-- DEC (R180): the top bit goes to SIGN, the other 255 bits are reduced and never rejected. -/
def execDec (rd : Reg) (s : State) : Answer :=
  withBuffer (encode (.dec rd)) s fun bs =>
    .next ((s.setSign (signFlag (leValue bs))).writeReg rd (modq ((leValue bs % 2 ^ 255 : Nat) : Int)))

/-- ENC (R182): the 32 canonical bytes, all marked written. -/
def execEnc (ra : Reg) (s : State) : Answer :=
  withSource (encode (.enc ra)) ra s fun a => .next (s.writeBufBytes 0 (leBytes 32 a.val))

end Sys2Proof.Machine
end

