-- ==== Sys2Proof/Machine/Exponent.lean ====
section
/-!
DEFINITION. The exponentiation commands INV, POWQ58, SQRT (41_exponentiation.md).
-/

namespace Sys2Proof.Machine

/-- INV (R140): pow(a, q - 2); there is no divide-by-zero fault. -/
def execInv (rd ra : Reg) (s : State) : Answer :=
  withSource (encode (.inv rd ra)) ra s fun a => .next (s.writeReg rd (powq a invExponent))

/-- POWQ58 (R142): pow(a, (q - 5)/8). -/
def execPowq58 (rd ra : Reg) (s : State) : Answer :=
  withSource (encode (.powq58 rd ra)) ra s fun a => .next (s.writeReg rd (powq a sqrtExponent))

/-- The candidate root beta (R144, D8; log 14). -/
def rootCandidate (a : Fq) : Fq := mulq a (powq a sqrtExponent)

/-- The root SQRT returns: beta where beta ⊗ beta = a, else beta ⊗ SQRTM1 where beta ⊗ beta = q ⊖ a, else none (R144). -/
def squareRoot (a : Fq) : Option Fq :=
  let beta := rootCandidate a
  let c := mulq beta beta
  let alt := mulq beta sqrtm1
  if c = a then some beta
  else if c = modq ((q : Int) - toInt a) then some alt
  else none

/-- SQRT (R144): a missing root is no fault, it sets NOROOT and leaves rd unwritten (R205). -/
def execSqrt (rd ra : Reg) (s : State) : Answer :=
  withSource (encode (.sqrt rd ra)) ra s fun a =>
    match squareRoot a with
    | some r => .next ((s.writeReg rd r).setNoroot false)
    | none => .next ((s.clearReg rd).setNoroot true)

end Sys2Proof.Machine
end

