-- ==== Sys2Proof/Machine/Predicate.lean ====
section
/-!
DEFINITION. The predicate commands EQ and ISNEG (42_predicates.md); both write only STATUS.RES.
-/

namespace Sys2Proof.Machine

/-- EQ (R170). -/
def execEq (ra rb : Reg) (s : State) : Answer :=
  withSources (encode (.eq ra rb)) ra rb s fun a b => .next (s.setRes (equalFlag a b))

/-- ISNEG (R171). -/
def execIsneg (ra : Reg) (s : State) : Answer :=
  withSource (encode (.isneg ra)) ra s fun a => .next (s.setRes (negativeFlag a))

end Sys2Proof.Machine
end

