-- ==== Sys2Proof/Machine/Dispatch.lean ====
section
/-!
DEFINITION. One arm per command: each calls the command's meaning (R76: "perform row.rule").
-/

namespace Sys2Proof.Machine

def exec (i : Instr) (s : State) : Host.Outcome State Fault Refusal :=
  match i with
  | .add rd ra rb => Sys2Proof.Machine.execAdd rd ra rb s
  | .sub rd ra rb => Sys2Proof.Machine.execSub rd ra rb s
  | .mul rd ra rb => Sys2Proof.Machine.execMul rd ra rb s
  | .sqr rd ra => Sys2Proof.Machine.execSqr rd ra s
  | .neg rd ra => Sys2Proof.Machine.execNeg rd ra s
  | .mov rd ra => Sys2Proof.Machine.execMov rd ra s
  | .ldk rd k => Sys2Proof.Machine.execLdk rd k s
  | .inv rd ra => Sys2Proof.Machine.execInv rd ra s
  | .powq58 rd ra => Sys2Proof.Machine.execPowq58 rd ra s
  | .sqrt rd ra => Sys2Proof.Machine.execSqrt rd ra s
  | .dec rd => Sys2Proof.Machine.execDec rd s
  | .enc ra => Sys2Proof.Machine.execEnc ra s
  | .eq ra rb => Sys2Proof.Machine.execEq ra rb s
  | .isneg ra => Sys2Proof.Machine.execIsneg ra s

end Sys2Proof.Machine
end

