-- ==== Sys2Proof/Machine/Command.lean ====
section
/-!
DEFINITION. One command step with a word (R76), in the order of priority of R206.
-/

namespace Sys2Proof.Machine

/-- step(w) of R76: ignored while FAULT = 1 (R208); else the word is decoded, an illegal one raises ILLEGAL_CMD (R201), and a
command's rule is performed. -/
def command (w : CmdWord) (s : State) : Answer :=
  if s.status.fault then .next s
  else
    match decode w with
    | .error _ => raises .illegalCmd w s
    | .ok i => exec i s

end Sys2Proof.Machine
end

