-- ==== Sys2Proof/Machine/Window.lean ====
section
/-!
DEFINITION. The host window (R50 to R60): the map, the access widths, reads, writes, and the events of the host's total order.
-/

namespace Sys2Proof.Machine

/-- The offset in the window of a host address, none outside the 64 bytes at FAU_BASE (R51, R52; log 3). -/
def windowOffset (addr : Nat) : Option (Fin 64) :=
  if h : Config.fauBase ≤ addr ∧ addr < Config.fauBase + 64 then some ⟨addr - Config.fauBase, by omega⟩ else none

/-- What stands in the window (R51). -/
inductive Place where
  | cmd
  | status
  | fcmd
  | reserved
  | buf (i : Fin 32)
  deriving DecidableEq, Repr

/-- What a 32-bit access at an offset reaches: the three registers, or four reserved bytes (R55). DEDUCED: a word that lies
wholly in 0x0C to 0x1F is allowed at any alignment there (log 9). None is an access R56 refuses. -/
def wordPlace (off : Fin 64) : Option Place :=
  if off.val = 0x00 then some .cmd
  else if off.val = 0x04 then some .status
  else if off.val = 0x08 then some .fcmd
  else if 0x0C ≤ off.val ∧ off.val + 4 ≤ 0x20 then some .reserved
  else none

/-- What an 8-bit access at an offset reaches: a BUF byte or a reserved byte (R55). None is an access R56 refuses. -/
def bytePlace (off : Fin 64) : Option Place :=
  if h : 0x20 ≤ off.val then some (.buf ⟨off.val - 0x20, by omega⟩)
  else if 0x0C ≤ off.val then some .reserved
  else none

/-- A read of one BUF byte: its value where it is written, else a fresh free draw that leaves it unwritten (R60, I4; log 4). -/
def readBuf (i : Fin 32) (s : State) : State :=
  match s.buf.read i.val with
  | some b => s.returns (.byte b)
  | none => { s.returns (.byte (Config.freeByte s.draws)) with draws := s.draws + 1 }

/-- A 32-bit host read: CMD and reserved offsets return 0 (R38, R59), STATUS and FCMD their words (R32, R37). -/
def hostRead32 (off : Fin 64) (s : State) : Answer :=
  match wordPlace off with
  | some .cmd => .next (s.returns (.word 0))
  | some .status => .next (s.returns (.word s.status.word))
  | some .fcmd => .next (s.returns (.word s.fcmd))
  | some .reserved => .next (s.returns (.word 0))
  | some (.buf _) => .refused .hostAccess
  | none => .refused .hostAccess

/-- An 8-bit host read: a BUF byte, or 0 at a reserved offset (R55, R59). -/
def hostRead8 (off : Fin 64) (s : State) : Answer :=
  match bytePlace off with
  | some (.buf i) => .next (readBuf i s)
  | some .reserved => .next (s.returns (.byte 0))
  | some .cmd => .refused .hostAccess
  | some .status => .refused .hostAccess
  | some .fcmd => .refused .hostAccess
  | none => .refused .hostAccess

/-- A 32-bit host write: at CMD a command step (R38); ignored at STATUS, FCMD and reserved offsets (R51, R59). -/
def hostWrite32 (off : Fin 64) (w : BitVec 32) (s : State) : Answer :=
  match wordPlace off with
  | some .cmd => command w s
  | some .status => .next s
  | some .fcmd => .next s
  | some .reserved => .next s
  | some (.buf _) => .refused .hostAccess
  | none => .refused .hostAccess

/-- An 8-bit host write: a BUF byte (R58), or ignored at a reserved offset (R59). -/
def hostWrite8 (off : Fin 64) (b : BitVec 8) (s : State) : Answer :=
  match bytePlace off with
  | some (.buf i) => .next (s.writeBuf i.val b)
  | some .reserved => .next s
  | some .cmd => .refused .hostAccess
  | some .status => .refused .hostAccess
  | some .fcmd => .refused .hostAccess
  | none => .refused .hostAccess

/-- A window access needs reset to be released: between assertion and release the spec gives no behaviour (I18; log 2). -/
def whenReleased (s : State) (go : State → Answer) : Answer :=
  if s.resetHeld then .fault .resetHeld else go s

/-- One host event. A 16-bit access has no meaning anywhere in the window (R55, R56; log 8). -/
def hostEvent (e : HostEvent) (s : State) : Answer :=
  match e with
  | .read8 off => whenReleased s (hostRead8 off)
  | .read16 _ => whenReleased s fun _ => .refused .hostAccess
  | .read32 off => whenReleased s (hostRead32 off)
  | .write8 off b => whenReleased s (hostWrite8 off b)
  | .write16 _ _ => whenReleased s fun _ => .refused .hostAccess
  | .write32 off w => whenReleased s (hostWrite32 off w)
  | .resetLine true => .next s.assertReset
  | .resetLine false => .next s.releaseReset

/-- The next event of the host's total order (R62). With none left the FAU is idle and keeps all its state (R217, R231; log 1). -/
def nextEvent (s : State) : Answer :=
  match s.host with
  | [] => .next s
  | e :: rest => hostEvent e { s with host := rest }

end Sys2Proof.Machine
end

