-- ==== Sys2Proof/Machine/Step.lean ====
section
/-!
DEFINITION. The machine's step: the host's next event. And how a command comes to be the next event (log 1).
-/

namespace Sys2Proof.Machine

/-- One step of the machine: one event of the total order (R62, R234). -/
def step (s : State) : Host.Outcome State Fault Refusal := nextEvent s

/-- s with the table word's command written to CMD as the host's next event, reset released, so that the next step performs
it (R38, R65; log 1). In a state with FAULT = 1 that step ignores it, as R208 says. -/
def State.withFetchWord (s : State) (nbits w : Nat) : State :=
  { s with host := .write32 0 (wordOfTable nbits w) :: s.host, resetHeld := false }

/-- s with a host program: the events of a run (R239). -/
def State.withHost (s : State) (es : List HostEvent) : State := { s with host := es }

end Sys2Proof.Machine
end

