-- ==== Sys2Proof/Machine/Assembler.lean ====
section
/-!
DEFINITION. The assembler syntax (R77): one command as its mnemonic and its operands, destination first, as text tokens. There
are no pseudo-instructions (R78), so every line is one command.
-/

namespace Sys2Proof.Machine

/-- The lower-case mnemonic (R77). -/
def Op.text : Op → String
  | .add => "add"
  | .sub => "sub"
  | .mul => "mul"
  | .sqr => "sqr"
  | .neg => "neg"
  | .mov => "mov"
  | .ldk => "ldk"
  | .inv => "inv"
  | .powq58 => "powq58"
  | .sqrt => "sqrt"
  | .dec => "dec"
  | .enc => "enc"
  | .eq => "eq"
  | .isneg => "isneg"

/-- The register names f0 to f15 (R77). -/
def regNames : List (String × Reg) :=
  [("f0", 0), ("f1", 1), ("f2", 2), ("f3", 3), ("f4", 4), ("f5", 5), ("f6", 6), ("f7", 7), ("f8", 8), ("f9", 9),
   ("f10", 10), ("f11", 11), ("f12", 12), ("f13", 13), ("f14", 14), ("f15", 15)]

/-- The names of LDK's constants: the ROM name, or a decimal 0 to 6 (R77). -/
def constNames : List (String × ConstIndex) :=
  [("ZERO", 0), ("ONE", 1), ("TWO", 2), ("FOUR", 3), ("FIVE", 4), ("EIGHT", 5), ("SQRTM1", 6),
   ("0", 0), ("1", 1), ("2", 2), ("3", 3), ("4", 4), ("5", 5), ("6", 6)]

/-- The value a name stands for. -/
def valueOf (names : List (String × Fin 16)) (t : String) : Option (Fin 16) :=
  (names.find? fun p => p.1 == t).map (·.2)

/-- The first name of a value: f<n> for a register, the ROM name for a constant; empty for an unassigned constant. -/
def nameOf (names : List (String × Fin 16)) (v : Fin 16) : String :=
  ((names.find? fun p => p.2 == v).map (·.1)).getD ""

/-- f<n>, the text of register n (R77). -/
def regText (r : Reg) : String := nameOf regNames r

/-- The mnemonic a token names. -/
def opOfText (t : String) : Option Op :=
  [Op.add, .sub, .mul, .sqr, .neg, .mov, .ldk, .inv, .powq58, .sqrt, .dec, .enc, .eq, .isneg].find? fun o => Op.text o == t

/-- A command with three register operands. -/
def asm3 (mk : Reg → Reg → Reg → Instr) : List String → Option Instr
  | [d, a, b] =>
    match valueOf regNames d, valueOf regNames a, valueOf regNames b with
    | some rd, some ra, some rb => some (mk rd ra rb)
    | _, _, _ => none
  | _ => none

/-- A command with two operands, the second one named from a given list. -/
def asm2 (names : List (String × Fin 16)) (mk : Reg → Fin 16 → Instr) : List String → Option Instr
  | [d, a] =>
    match valueOf regNames d, valueOf names a with
    | some rd, some x => some (mk rd x)
    | _, _ => none
  | _ => none

/-- A command with one register operand. -/
def asm1 (mk : Reg → Instr) : List String → Option Instr
  | [d] => (valueOf regNames d).map mk
  | _ => none

/-- The command a mnemonic and its operand tokens stand for, none where the line is no command (R77). -/
def assemble (op : String) (args : List String) : Option Instr :=
  match opOfText op with
  | none => none
  | some .add => asm3 .add args
  | some .sub => asm3 .sub args
  | some .mul => asm3 .mul args
  | some .sqr => asm2 regNames .sqr args
  | some .neg => asm2 regNames .neg args
  | some .mov => asm2 regNames .mov args
  | some .ldk => asm2 constNames .ldk args
  | some .inv => asm2 regNames .inv args
  | some .powq58 => asm2 regNames .powq58 args
  | some .sqrt => asm2 regNames .sqrt args
  | some .dec => asm1 .dec args
  | some .enc => asm1 .enc args
  | some .eq => asm2 regNames .eq args
  | some .isneg => asm1 .isneg args

/-- The operand tokens of a command, destination first, then sources (R77). -/
def operandText : Instr → List String
  | .add rd ra rb => [regText rd, regText ra, regText rb]
  | .sub rd ra rb => [regText rd, regText ra, regText rb]
  | .mul rd ra rb => [regText rd, regText ra, regText rb]
  | .sqr rd ra => [regText rd, regText ra]
  | .neg rd ra => [regText rd, regText ra]
  | .mov rd ra => [regText rd, regText ra]
  | .ldk rd k => [regText rd, nameOf constNames k]
  | .inv rd ra => [regText rd, regText ra]
  | .powq58 rd ra => [regText rd, regText ra]
  | .sqrt rd ra => [regText rd, regText ra]
  | .dec rd => [regText rd]
  | .enc ra => [regText ra]
  | .eq ra rb => [regText ra, regText rb]
  | .isneg ra => [regText ra]

/-- A command's line: the mnemonic, then the operands separated by commas (R77). -/
def asmLine (i : Instr) : String := Op.text i.op ++ " " ++ String.intercalate ", " (operandText i)

end Sys2Proof.Machine
end

