-- ==== Sys2Proof/Safety.lean ====
section
/-!
DEFINITION. The terms claims are stated in: what a fault entry is, what a command leaves unchanged, the invariant of the machine,
which states have the same written marks, and the shape of a command's rule.
-/

namespace Sys2Proof.Safety

open Sys2Proof.Machine

/-- A run's state that makes it a faulted run (R239). -/
def Faulted (s : State) : Prop := s.status.fault = true

/-- t is s after fault entry with this cause, register and word: four writes and nothing else (R203). -/
def FaultEntry (s t : State) (c : FCause) (r : Reg) (w : CmdWord) : Prop :=
  t = { s with status := { s.status with fault := true, fcause := c, freg := r }, fcmd := w }

/-- Every field register is as before, value and mark. -/
def KeepsRegs (s t : State) : Prop := ∀ r, t.reg r = s.reg r

/-- Every field register but rd is as before, value and mark. -/
def KeepsRegsBut (rd : Reg) (s t : State) : Prop := ∀ r, r ≠ rd → t.reg r = s.reg r

/-- Every BUF byte reads as before, value and mark. -/
def KeepsBuf (s t : State) : Prop := ∀ a, t.buf.read a = s.buf.read a

/-- The model's own fields are as before: the events still to come, the reset line, the last read, the draws. -/
def KeepsOwn (s t : State) : Prop :=
  t.host = s.host ∧ t.resetHeld = s.resetHeld ∧ t.readData = s.readData ∧ t.draws = s.draws

/-- STATUS fields that report results: RES, SIGN and NOROOT are as before. -/
def KeepsResults (s t : State) : Prop :=
  t.status.res = s.status.res ∧ t.status.sign = s.status.sign ∧ t.status.noroot = s.status.noroot

/-- The fault record: FAULT, FCAUSE, FREG and FCMD are as before. -/
def KeepsFaultRecord (s t : State) : Prop :=
  t.status.fault = s.status.fault ∧ t.status.fcause = s.status.fcause ∧ t.status.freg = s.status.freg ∧ t.fcmd = s.fcmd

/-- The state the host can see or a command can use is at its reset values (R41). -/
def AtReset (s : State) : Prop :=
  (∀ r, s.reg r = none) ∧ s.status.word = 0 ∧ s.status = Status.reset ∧ s.fcmd = 0 ∧ (∀ a, s.buf.read a = none)

/-- The fault record explains itself: with no fault it is all 0; with one, FCMD is a word that can raise the recorded cause,
and FREG is one of the registers that word reads for UNINIT_REG and 0 otherwise (R200 to R204, R36, R37). -/
def FaultRecordSound (s : State) : Prop :=
  match s.status.fault, s.status.fcause with
  | false, c => c = .noFault ∧ s.status.freg = 0 ∧ s.fcmd = 0
  | true, .noFault => False
  | true, .illegalCmd => s.status.freg = 0 ∧ ∃ e, decode s.fcmd = .error e
  | true, .uninitReg => ∃ i, decode s.fcmd = .ok i ∧ s.status.freg ∈ i.sources
  | true, .uninitBuf => s.status.freg = 0 ∧ ∃ rd, decode s.fcmd = .ok (.dec rd)

/-- The machine's invariant: BUF has its canonical form, the fault record is sound, and while reset is held every piece of the
FAU's state is at its reset value (R41, R50, R230). -/
def Inv (s : State) : Prop :=
  s.buf.wf = true ∧ FaultRecordSound s ∧ (s.resetHeld = true → AtReset s)

/-- Two states have the same written marks, on registers and on BUF (R25, R50); the values may differ. -/
def SameMarks (s t : State) : Prop :=
  (∀ r, (s.reg r).isSome = (t.reg r).isSome) ∧ ∀ a, a < 32 → (s.buf.read a).isSome = (t.buf.read a).isSome

/-- (op << 24) | (rd << 20) | (ra << 16) | (rb << 12), as R70 writes it. -/
def shiftWord (op : BitVec 8) (rd ra rb : Fin 16) : CmdWord :=
  (op.setWidth 32 <<< 24) ||| (BitVec.ofNat 32 rd.val <<< 20) ||| (BitVec.ofNat 32 ra.val <<< 16)
    ||| (BitVec.ofNat 32 rb.val <<< 12)

/-- A word with this opcode that meets the condition raises ILLEGAL_CMD in every state with no fault (R201). -/
def IllegalWhen (op : BitVec 8) (bad : CmdWord → Prop) : Prop :=
  ∀ (s : State) (w : CmdWord), s.status.fault = false → opField w = op → bad w →
    ∃ t, command w s = .next t ∧ FaultEntry s t .illegalCmd 0 w

/-- A command answers a next state that is s with rd holding the value and nothing else changed. -/
def WritesOnly (i : Instr) (s : State) (rd : Reg) (v : Fq) : Prop :=
  ∃ t, exec i s = .next t ∧ t.reg rd = some v ∧ KeepsRegsBut rd s t ∧ t.status = s.status ∧ t.fcmd = s.fcmd
    ∧ KeepsBuf s t ∧ KeepsOwn s t

/-- The command's source read of register r faults: the answer is fault entry with UNINIT_REG, FREG = r and the command's own
word (R202). -/
def FaultsOn (i : Instr) (s : State) (r : Reg) : Prop :=
  ∃ t, exec i s = .next t ∧ FaultEntry s t .uninitReg r (encode i)

/-- The rule of a three-register command: its result f reduced mod q and nothing else (no STATUS field), for every choice of
registers, rd among the sources included; UNINIT_REG for ra, else for rb; its encoding and its text;
ILLEGAL_CMD for a non-zero reserved field. -/
def ThreeRegisterRule (name : String) (op : BitVec 8) (mk : Reg → Reg → Reg → Instr) (f : Int → Int → Int) : Prop :=
  (∀ s rd ra rb a b, s.reg ra = some a → s.reg rb = some b →
    ∃ v : Fq, (v.val : Int) = f a.val b.val % q ∧ WritesOnly (mk rd ra rb) s rd v) ∧
  (∀ s rd ra rb, s.reg ra = none → FaultsOn (mk rd ra rb) s ra) ∧
  (∀ s rd ra rb, s.reg ra ≠ none → s.reg rb = none → FaultsOn (mk rd ra rb) s rb) ∧
  (∀ rd ra rb, encode (mk rd ra rb) = shiftWord op rd ra rb ∧ decode (shiftWord op rd ra rb) = .ok (mk rd ra rb) ∧
    assemble name [regText rd, regText ra, regText rb] = some (mk rd ra rb)) ∧
  IllegalWhen op fun w => zeroField w ≠ 0

/-- The rule of a two-register command: its result f reduced mod q and nothing else, UNINIT_REG for ra, its encoding and its
text, and ILLEGAL_CMD for a non-zero rb or reserved field. -/
def TwoRegisterRule (name : String) (op : BitVec 8) (mk : Reg → Reg → Instr) (f : Int → Int) : Prop :=
  (∀ s rd ra a, s.reg ra = some a → ∃ v : Fq, (v.val : Int) = f a.val % q ∧ WritesOnly (mk rd ra) s rd v) ∧
  (∀ s rd ra, s.reg ra = none → FaultsOn (mk rd ra) s ra) ∧
  (∀ rd ra, encode (mk rd ra) = shiftWord op rd ra 0 ∧ decode (shiftWord op rd ra 0) = .ok (mk rd ra) ∧
    assemble name [regText rd, regText ra] = some (mk rd ra)) ∧
  IllegalWhen op fun w => rbField w ≠ 0 ∨ zeroField w ≠ 0

/-- The value of the 32 BUF bytes B, little-endian (R53). -/
def bufferValue (B : Nat → Byte) : Nat := ∑ i ∈ Finset.range 32, (B i).toNat * 256 ^ i

/-- Every BUF byte is written, and byte i is B i. -/
def BufferHolds (s : State) (B : Nat → Byte) : Prop := ∀ i, i < 32 → s.buf.read i = some (B i)

end Sys2Proof.Safety
end

