-- ==== Sys2Proof/Certificates/Slice0/Obligations.lean ====
section
/-!
DEFINITION. The statements for the provers. Each docstring names the rules of spec/ it formalises, or says what it rests on.
-/

open Sys2Proof Sys2Proof.Machine Sys2Proof.Safety

/-- R110. ADD writes modq(a + b), reads ra before rb, and is op 0x01 of form RRR. -/
def Obligations.AddWritesSum : Prop := ThreeRegisterRule "add" 0x01 .add fun a b => a + b

/-- R111. SUB writes modq(a - b), in [0, q) even when a < b. -/
def Obligations.SubWritesDifference : Prop := ThreeRegisterRule "sub" 0x02 .sub fun a b => a - b

/-- R112. MUL writes modq(a * b), of the exact product. -/
def Obligations.MulWritesProduct : Prop := ThreeRegisterRule "mul" 0x03 .mul fun a b => a * b

/-- R113. SQR writes modq(a * a). -/
def Obligations.SqrWritesSquare : Prop := TwoRegisterRule "sqr" 0x04 .sqr fun a => a * a

/-- R114. NEG writes modq(0 - a). -/
def Obligations.NegWritesNegation : Prop := TwoRegisterRule "neg" 0x05 .neg fun a => 0 - a

/-- R115. MOV writes its source's value (which is in [0, q), so it is its own residue); an unwritten source faults. -/
def Obligations.MovCopiesRegister : Prop := TwoRegisterRule "mov" 0x06 .mov fun a => a

/-- LDK loads K[k] and reads no register: it completes in every state, whatever is unwritten; k ≥ 7 is illegal (R116, R30, R73).
Derived: K6 rests on "2^((q−1)/4) mod q [from general knowledge, not in source]" of R30 (D7; log 6). -/
def Obligations.LdkLoadsConstant : Prop :=
  (∀ (s : State) (rd : Reg) (k : ConstIndex), k.val ≤ 6 →
    ∃ v : Fq, WritesOnly (.ldk rd k) s rd v ∧
      some v.val = [0, 1, 2, 4, 5, 8,
        19681161376707505956807079304988542015446066515923890162744021073123829784752][k.val]?) ∧
  (∀ (rd : Reg) (k : ConstIndex), k.val ≤ 6 →
    encode (.ldk rd k) = shiftWord 0x07 rd k 0 ∧ decode (shiftWord 0x07 rd k 0) = .ok (.ldk rd k) ∧
    assemble "ldk" [regText rd, nameOf constNames k] = some (.ldk rd k)) ∧
  IllegalWhen 0x07 fun w => 7 ≤ (raField w).toNat ∨ rbField w ≠ 0 ∨ zeroField w ≠ 0

/-- R140. INV writes pow(a, q - 2); 0 is no special case and there is no divide-by-zero fault. -/
def Obligations.InvWritesPower : Prop := TwoRegisterRule "inv" 0x08 .inv fun a => a ^ (q - 2)

/-- POWQ58 writes pow(a, (q - 5)/8). Derived: R142 also speaks of time, which this does not state. -/
def Obligations.Powq58WritesPower : Prop := TwoRegisterRule "powq58" 0x09 .powq58 fun a => a ^ ((q - 5) / 8)

/-- SQRT as R144's pseudocode gives it. Derived: the candidate a·a^((q−5)/8) and the value of SQRTM1 are "not in the source [from
general knowledge, not in source]" (D7, D8; logs 6 and 14). -/
def Obligations.SqrtWritesCandidateOrAlternative : Prop :=
  ∀ (s : State) (rd ra : Reg) (a : Fq), s.reg ra = some a →
    ∃ t, exec (.sqrt rd ra) s = .next t ∧ KeepsRegsBut rd s t ∧ KeepsBuf s t ∧ KeepsOwn s t ∧ t.fcmd = s.fcmd ∧
      let beta := a.val * a.val ^ ((q - 5) / 8) % q
      let alt := beta * 19681161376707505956807079304988542015446066515923890162744021073123829784752 % q
      if beta * beta % q = a.val then
        (t.reg rd).map (·.val) = some beta ∧ t.status = { s.status with noroot := false }
      else if beta * beta % q = (q - a.val) % q then
        (t.reg rd).map (·.val) = some alt ∧ t.status = { s.status with noroot := false }
      else t.reg rd = none ∧ t.status = { s.status with noroot := true }

/-- R205. A missing square root is no fault: when nothing squares to the source's value, SQRT completes with NOROOT = 1 and rd
unwritten, and with the fault record as it was, so that later commands run. -/
def Obligations.SqrtMissingRootIsStatus : Prop :=
  ∀ (s : State) (rd ra : Reg) (a : Fq), s.reg ra = some a → (∀ r : Nat, r * r % q ≠ a.val) →
    ∃ t, exec (.sqrt rd ra) s = .next t ∧ t.status = { s.status with noroot := true } ∧ t.fcmd = s.fcmd ∧ t.reg rd = none ∧
      KeepsRegsBut rd s t ∧ KeepsBuf s t ∧ KeepsOwn s t

/-- SQRT is op 0x0A of form RR: its encoding, and its faults "as INV" (R144). Derived, as R144 is stated in part. -/
def Obligations.SqrtEncodingAndFaults : Prop :=
  (∀ (s : State) (rd ra : Reg), s.reg ra = none → FaultsOn (.sqrt rd ra) s ra) ∧
  (∀ rd ra, encode (.sqrt rd ra) = shiftWord 0x0A rd ra 0 ∧ decode (shiftWord 0x0A rd ra 0) = .ok (.sqrt rd ra) ∧
    assemble "sqrt" [regText rd, regText ra] = some (.sqrt rd ra)) ∧
  IllegalWhen 0x0A fun w => rbField w ≠ 0 ∨ zeroField w ≠ 0

/-- SQRT is sound and complete: it reports NOROOT = 0 exactly when a root exists, and the value it then writes squares to a.
Derived: R145 is "[derived: from rule R144 and 10_state.md rule R30]" and rests on q being prime and on logs 6 and 14. -/
def Obligations.SqrtSoundAndComplete : Prop :=
  ∀ (s : State) (rd ra : Reg) (a : Fq), s.reg ra = some a →
    ∃ t, exec (.sqrt rd ra) s = .next t ∧
      (t.status.noroot = false ↔ ∃ r : Nat, r * r % q = a.val) ∧
      (t.status.noroot = false → ∃ r : Fq, t.reg rd = some r ∧ r.val * r.val % q = a.val) ∧
      (t.status.noroot = true → t.reg rd = none)

/-- R180. DEC writes modq of the low 255 bits of the 32 BUF bytes and reports bit 7 of BUF[31] in SIGN; an unwritten byte raises
UNINIT_BUF and then neither rd nor SIGN is written. -/
def Obligations.DecReadsBuffer : Prop :=
  (∀ (s : State) (rd : Reg) (B : Nat → Byte), BufferHolds s B →
    ∃ t, exec (.dec rd) s = .next t ∧ (t.reg rd).map (·.val) = some (bufferValue B % 2 ^ 255 % q) ∧
      t.status = { s.status with sign := (B 31).getLsbD 7 } ∧
      KeepsRegsBut rd s t ∧ t.fcmd = s.fcmd ∧ KeepsBuf s t ∧ KeepsOwn s t) ∧
  (∀ (s : State) (rd : Reg) (i : Nat), i < 32 → s.buf.read i = none →
    ∃ t, exec (.dec rd) s = .next t ∧ FaultEntry s t .uninitBuf 0 (encode (.dec rd))) ∧
  (∀ rd, encode (.dec rd) = shiftWord 0x10 rd 0 0 ∧ decode (shiftWord 0x10 rd 0 0) = .ok (.dec rd) ∧
    assemble "dec" [regText rd] = some (.dec rd)) ∧
  IllegalWhen 0x10 fun w => raField w ≠ 0 ∨ rbField w ≠ 0 ∨ zeroField w ≠ 0

/-- R182. ENC writes the 32 canonical bytes of its source to BUF, so that bit 255 is clear, and nothing else. -/
def Obligations.EncWritesCanonicalBytes : Prop :=
  (∀ (s : State) (ra : Reg) (a : Fq), s.reg ra = some a →
    ∃ t, exec (.enc ra) s = .next t ∧
      (∀ i, i < 32 → (t.buf.read i).map (·.toNat) = some (a.val / 256 ^ i % 256)) ∧
      (∀ i, 32 ≤ i → t.buf.read i = s.buf.read i) ∧ (t.buf.read 31).map (·.getLsbD 7) = some false ∧
      KeepsRegs s t ∧ t.status = s.status ∧ t.fcmd = s.fcmd ∧ KeepsOwn s t) ∧
  (∀ (s : State) (ra : Reg), s.reg ra = none → FaultsOn (.enc ra) s ra) ∧
  (∀ ra, encode (.enc ra) = shiftWord 0x11 0 ra 0 ∧ decode (shiftWord 0x11 0 ra 0) = .ok (.enc ra) ∧
    assemble "enc" [regText ra] = some (.enc ra)) ∧
  IllegalWhen 0x11 fun w => rdField w ≠ 0 ∨ rbField w ≠ 0 ∨ zeroField w ≠ 0

/-- EQ writes RES = 1 exactly when its sources hold the same integer, and nothing else; on a fault RES is unchanged. Derived: R170
marks that sentence "[derived: from rule R170, since LEbytes is injective on [0, 2^256)]"; its pseudocode compares the 32 bytes. -/
def Obligations.EqComparesValues : Prop :=
  (∀ (s : State) (ra rb : Reg) (a b : Fq), s.reg ra = some a → s.reg rb = some b →
    ∃ t, exec (.eq ra rb) s = .next t ∧ t.status = { s.status with res := decide (a.val = b.val) } ∧
      KeepsRegs s t ∧ t.fcmd = s.fcmd ∧ KeepsBuf s t ∧ KeepsOwn s t) ∧
  (∀ (s : State) (ra rb : Reg), s.reg ra = none → FaultsOn (.eq ra rb) s ra) ∧
  (∀ (s : State) (ra rb : Reg), s.reg ra ≠ none → s.reg rb = none → FaultsOn (.eq ra rb) s rb) ∧
  (∀ ra rb, encode (.eq ra rb) = shiftWord 0x18 0 ra rb ∧ decode (shiftWord 0x18 0 ra rb) = .ok (.eq ra rb) ∧
    assemble "eq" [regText ra, regText rb] = some (.eq ra rb)) ∧
  IllegalWhen 0x18 fun w => rdField w ≠ 0 ∨ zeroField w ≠ 0

/-- R171. ISNEG writes RES = the parity of its source's canonical value, and nothing else; on a fault RES is unchanged. -/
def Obligations.IsnegReportsParity : Prop :=
  (∀ (s : State) (ra : Reg) (a : Fq), s.reg ra = some a →
    ∃ t, exec (.isneg ra) s = .next t ∧ t.status = { s.status with res := decide (a.val % 2 = 1) } ∧
      KeepsRegs s t ∧ t.fcmd = s.fcmd ∧ KeepsBuf s t ∧ KeepsOwn s t) ∧
  (∀ (s : State) (ra : Reg), s.reg ra = none → FaultsOn (.isneg ra) s ra) ∧
  (∀ ra, encode (.isneg ra) = shiftWord 0x19 0 ra 0 ∧ decode (shiftWord 0x19 0 ra 0) = .ok (.isneg ra) ∧
    assemble "isneg" [regText ra] = some (.isneg ra)) ∧
  IllegalWhen 0x19 fun w => rdField w ≠ 0 ∨ rbField w ≠ 0 ∨ zeroField w ≠ 0

/-- ENC then DEC yields the value again, with SIGN = 0. Derived: R184 is "[derived: from rules R180 and R182]". -/
def Obligations.EncThenDecRestoresValue : Prop :=
  ∀ (s : State) (ra rd : Reg) (a : Fq), s.reg ra = some a →
    ∃ t u, exec (.enc ra) s = .next t ∧ exec (.dec rd) t = .next u ∧ u.reg rd = some a ∧ u.status.sign = false

/-- DEC then ENC leaves the canonical encoding of modq(v[254:0]): the same bytes exactly when v < q, and then SIGN = 0. Derived:
R181 and R184 are "[derived: from rules R180 and R182]". -/
def Obligations.DecThenEncCanonicalizes : Prop :=
  ∀ (s : State) (rd : Reg) (B : Nat → Byte), BufferHolds s B →
    ∃ t u, exec (.dec rd) s = .next t ∧ exec (.enc rd) t = .next u ∧
      (∀ i, i < 32 → (u.buf.read i).map (·.toNat) = some (bufferValue B % 2 ^ 255 % q / 256 ^ i % 256)) ∧
      (bufferValue B < q → BufferHolds u B ∧ t.status.sign = false) ∧
      (q ≤ bufferValue B → ¬ BufferHolds u B)

/-- For a ≠ 0, a ⊗ INV(a) = 1, and INV(0) = 0. Derived: R102 is "[derived: from rule R100, 00_scope.md rule R11 and q being prime". -/
def Obligations.InvIsInverse : Prop :=
  ∀ (s : State) (rd ra rp : Reg) (a : Fq), s.reg ra = some a → rd ≠ ra →
    ∃ t u, exec (.inv rd ra) s = .next t ∧ exec (.mul rp ra rd) t = .next u ∧
      (a.val ≠ 0 → (u.reg rp).map (·.val) = some 1) ∧ (a.val = 0 → (t.reg rd).map (·.val) = some 0)

/-- NEG(NEG(a)) = a, and for a ≠ 0 NEG flips what ISNEG reports. Derived: R114 marks the parity law "[derived: from rule R114 and
42_predicates.md rule R171]". -/
def Obligations.NegFlipsParity : Prop :=
  ∀ (s : State) (rd re ra : Reg) (a : Fq), s.reg ra = some a →
    ∃ t u v w, exec (.neg rd ra) s = .next t ∧ exec (.neg re rd) t = .next u ∧ u.reg re = some a ∧
      exec (.isneg ra) s = .next v ∧ exec (.isneg rd) t = .next w ∧
      (a.val ≠ 0 → w.status.res = !v.status.res) ∧ (a.val = 0 → w.status.res = false)

/-- R103. None of ADD, SUB, MUL, SQR, NEG, MOV, LDK (nor INV, POWQ58) writes a STATUS field or BUF; each can fault only with ILLEGAL_CMD
or UNINIT_REG, and then nothing but the fault state changes. -/
def Obligations.ArithmeticFrame : Prop :=
  ∀ (i : Instr) (s t : State), i.op ∈ [Op.add, .sub, .mul, .sqr, .neg, .mov, .ldk, .inv, .powq58] → exec i s = .next t →
    (∃ r c, (c = FCause.illegalCmd ∨ c = FCause.uninitReg) ∧ FaultEntry s t c r (encode i)) ∨
    (t.status = s.status ∧ t.fcmd = s.fcmd ∧ KeepsBuf s t ∧ KeepsOwn s t ∧ ∀ r, i.dest ≠ some r → t.reg r = s.reg r)

/-- R26. Which commands write the register file: the destination and no other register, marked written but for a SQRT without a root,
and none when the command faults. -/
def Obligations.RegisterWriters : Prop :=
  ∀ (i : Instr) (s t : State), exec i s = .next t →
    (KeepsRegs s t ∧ ∃ c r, FaultEntry s t c r (encode i)) ∨
    (KeepsFaultRecord s t ∧ (∀ r, i.dest ≠ some r → t.reg r = s.reg r) ∧
      ∀ rd, i.dest = some rd →
        (t.reg rd ≠ none ∧ (i.op = .sqrt → t.status.noroot = false)) ∨
        (t.reg rd = none ∧ i.op = .sqrt ∧ t.status.noroot = true))

/-- The frame of every command: what it leaves as it was, faulting or not. Derived from R26, R33 to R35, R58. ENC stores 32 bytes at
offset 0, the other commands store nothing. -/
def Obligations.CommandFrame : Prop :=
  ∀ (i : Instr) (s t : State), exec i s = .next t →
    KeepsOwn s t ∧ (∀ r, i.dest ≠ some r → t.reg r = s.reg r) ∧
    (i.op ≠ .enc → KeepsBuf s t) ∧ (∀ a, 32 ≤ a → t.buf.read a = s.buf.read a) ∧
    (i.op ≠ .eq → i.op ≠ .isneg → t.status.res = s.status.res) ∧
    (i.op ≠ .dec → t.status.sign = s.status.sign) ∧ (i.op ≠ .sqrt → t.status.noroot = s.status.noroot) ∧
    (KeepsFaultRecord s t ∨ ∃ c r, FaultEntry s t c r (encode i))

/-- R33, R34, R35. Over every step that is no assertion of reset: RES changes only in an EQ or ISNEG, SIGN only in a DEC, NOROOT only in
a SQRT, and only in one that does not fault. -/
def Obligations.ResultFieldWriters : Prop :=
  ∀ (s t : State), step s = .next t → s.host.head? ≠ some (.resetLine true) →
    let performs := fun (i : Instr) => s.status.fault = false ∧ KeepsFaultRecord s t ∧
      ∃ w, s.host.head? = some (.write32 0 w) ∧ decode w = .ok i
    (t.status.res ≠ s.status.res → ∃ i, performs i ∧ (i.op = .eq ∨ i.op = .isneg)) ∧
    (t.status.sign ≠ s.status.sign → ∃ i, performs i ∧ i.op = .dec) ∧
    (t.status.noroot ≠ s.status.noroot → ∃ i, performs i ∧ i.op = .sqrt)

/-- A register changes only by a command that names it as its destination and does not fault, or by reset. Derived from R25 ("A register
never holds a value a program did not put there") and R26. -/
def Obligations.RegistersChangeOnlyByCommand : Prop :=
  ∀ (s t : State) (r : Reg), step s = .next t → s.host.head? ≠ some (.resetLine true) → t.reg r ≠ s.reg r →
    s.status.fault = false ∧ KeepsFaultRecord s t ∧
      ∃ w i, s.host.head? = some (.write32 0 w) ∧ decode w = .ok i ∧ i.dest = some r

/-- A BUF byte changes only by a host write of that byte, by an ENC, or by reset. Derived from R58. -/
def Obligations.BufferChangesOnlyByWriteOrEnc : Prop :=
  ∀ (s t : State) (a : Nat), step s = .next t → s.host.head? ≠ some (.resetLine true) → t.buf.read a ≠ s.buf.read a →
    a < 32 ∧
      ((∃ (off : Fin 64) (b : Byte), s.host.head? = some (.write8 off b) ∧ off.val = 32 + a ∧ t.buf.read a = some b) ∨
       (s.status.fault = false ∧ ∃ w ra, s.host.head? = some (.write32 0 w) ∧ decode w = .ok (.enc ra)))

/-- R36. FAULT, FCAUSE and FREG (and FCMD) change only at fault entry, in a command written to CMD with FAULT = 0, and are cleared only
by reset. -/
def Obligations.FaultRecordWriters : Prop :=
  ∀ (s t : State), step s = .next t → s.host.head? ≠ some (.resetLine true) →
    (s.status.fault = true → KeepsFaultRecord s t) ∧
    (KeepsFaultRecord s t ∨
      ∃ w c r, s.host.head? = some (.write32 0 w) ∧ c ≠ .noFault ∧ FaultEntry { s with host := s.host.tail } t c r w)

/-- R208. While FAULT = 1 a write to CMD changes nothing (but that the event is taken); reads of STATUS, FCMD and BUF and writes of
BUF still work; only reset clears the fault. An unwritten BUF byte reads as some byte. -/
def Obligations.FaultedUnitIgnoresCommands : Prop :=
  ∀ (s : State) (rest : List HostEvent), s.status.fault = true → s.resetHeld = false →
    (∀ w, s.host = .write32 0 w :: rest → step s = .next { s with host := rest }) ∧
    (s.host = .read32 4 :: rest → step s = .next { s with host := rest, readData := some (.word s.status.word) }) ∧
    (s.host = .read32 8 :: rest → step s = .next { s with host := rest, readData := some (.word s.fcmd) }) ∧
    (∀ (i : Fin 32) (off : Fin 64) (b : Byte), off.val = 32 + i.val → s.buf.read i = some b → s.host = .read8 off :: rest →
      step s = .next { s with host := rest, readData := some (.byte b) }) ∧
    (∀ (i : Fin 32) (off : Fin 64), off.val = 32 + i.val → s.buf.read i = none → s.host = .read8 off :: rest →
      ∃ t b, step s = .next t ∧ t.readData = some (.byte b) ∧ t.buf = s.buf ∧ t.status = s.status ∧ t.fcmd = s.fcmd ∧
        KeepsRegs s t) ∧
    (∀ (i : Fin 32) (off : Fin 64) (b : Byte), off.val = 32 + i.val → s.host = .write8 off b :: rest →
      ∃ t, step s = .next t ∧ t.buf.read i = some b ∧ (∀ a, a ≠ i.val → t.buf.read a = s.buf.read a) ∧
        t.status = s.status ∧ t.fcmd = s.fcmd ∧ KeepsRegs s t) ∧
    (s.host = .resetLine true :: rest → ∃ t, step s = .next t ∧ t.status.fault = false) ∧
    (∀ t, step s = .next t → t.status.fault = false → s.host.head? = some (.resetLine true))

/-- R75, R76, R201. A command step is ignored while FAULT = 1; else a word is illegal exactly when one of R75's four conditions holds,
and raises ILLEGAL_CMD; every other word is the word of one command and performs its rule. -/
def Obligations.IllegalWordsRaise : Prop :=
  ∀ (s : State) (w : CmdWord), (s.status.fault = true → command w s = .next s) ∧
    (s.status.fault = false →
      let illegal := (∀ o : Op, o.code ≠ opField w) ∨ zeroField w ≠ 0 ∨
        (∃ o : Op, o.code = opField w ∧ o.form.unusedZero w = false) ∨ (opField w = 0x07 ∧ 7 ≤ (raField w).toNat)
      (illegal → ∃ t, command w s = .next t ∧ FaultEntry s t .illegalCmd 0 w) ∧
      (¬ illegal → ∃ i, decode w = .ok i ∧ i.op.code = opField w ∧ encode i = w ∧ command w s = exec i s))

/-- R74. A word selects the row whose match satisfies (w AND mask) = match, with k ≤ 6 for LDK, and at most one row matches. -/
def Obligations.OpcodeRowsSelect : Prop :=
  (∀ (w : CmdWord) (o : Op),
    (w &&& o.rowMask = o.rowMatch ∧ (o = .ldk → (raField w).toNat ≤ 6)) ↔ ∃ i, decode w = .ok i ∧ i.op = o) ∧
  (∀ (w : CmdWord) (o p : Op), w &&& o.rowMask = o.rowMatch → w &&& p.rowMask = p.rowMatch → o = p)

/-- Decoding an encoded well-formed command gives it back, every operand at every value. Derived from 30_encoding.md. -/
def Obligations.DecodeOfEncode : Prop := ∀ i : Instr, WellFormed i → decode (encode i) = .ok i

/-- Every word that decodes is the one encoding of a well-formed command. Derived from 30_encoding.md ("Every field it does not use
must be 0"). -/
def Obligations.EncodeOfDecode : Prop := ∀ (w : CmdWord) (i : Instr), decode w = .ok i → encode i = w ∧ WellFormed i

/-- The example words of R77, one of each form, decode to the command beside them. Derived: "The example words are derived from rule
R70." -/
def Obligations.SampleWordsDecode : Prop :=
  decode 0x01123000 = .ok (.add 1 2 3) ∧ decode 0x08450000 = .ok (.inv 4 5) ∧ decode 0x07010000 = .ok (.ldk 0 1) ∧
  decode 0x10700000 = .ok (.dec 7) ∧ decode 0x11070000 = .ok (.enc 7) ∧ decode 0x18012000 = .ok (.eq 1 2)

/-- Assembling the text of a well-formed command gives it back. Derived from R77. -/
def Obligations.AssembleOfText : Prop :=
  ∀ i : Instr, WellFormed i → assemble (Op.text i.op) (operandText i) = some i

/-- A step whose next event writes to CMD a word that decodes performs that command: step is exec of it, on the state with the event
consumed. Derived from R38 and R76. -/
def Obligations.StepRunsDecodedCommand : Prop :=
  ∀ (s : State) (w : CmdWord) (rest : List HostEvent) (i : Instr), s.resetHeld = false → s.status.fault = false →
    s.host = .write32 0 w :: rest → decode w = .ok i → step s = exec i { s with host := rest }

/-- Every command step answers a next state, whatever the word and the state: no hang inside a command. Derived from R237. -/
def Obligations.EveryCommandCompletes : Prop := ∀ (w : CmdWord) (s : State), ∃ t, command w s = .next t

/-- R206 (with R202 and R204). The causes of one command step, in their order: already faulted, ILLEGAL_CMD, UNINIT_REG for the first
unwritten source, UNINIT_BUF for DEC; a command raises at most one, recording the word it was given, and none when none applies. -/
def Obligations.FaultPriority : Prop :=
  ∀ (s : State) (w : CmdWord), ∃ t, command w s = .next t ∧
    if s.status.fault = true then t = s
    else match decode w with
      | .error _ => FaultEntry s t .illegalCmd 0 w
      | .ok i =>
        match i.sources.find? fun r => (s.reg r).isNone with
        | some r => FaultEntry s t .uninitReg r w
        | none => (i.op = .dec ∧ (∃ a, a < 32 ∧ s.buf.read a = none) ∧ FaultEntry s t .uninitBuf 0 w) ∨
            ((i.op = .dec → ∀ a, a < 32 → s.buf.read a ≠ none) ∧ KeepsFaultRecord s t)

/-- Whether a command faults, and what it records, depends only on the word and the written marks, never on a register value or a
BUF byte value. Derived: the sentence of R236 that is not about time. -/
def Obligations.MarksAloneDecideFaults : Prop :=
  ∀ (w : CmdWord) (s s' : State), SameMarks s s' → s.status.fault = false → s'.status.fault = false →
    ∃ t t', command w s = .next t ∧ command w s' = .next t' ∧ t.status.fault = t'.status.fault ∧
      (t.status.fault = true → t.status.fcause = t'.status.fcause ∧ t.status.freg = t'.status.freg ∧ t.fcmd = t'.fcmd)

/-- R8. A command is a pure function of its operand values: two states that agree on its sources (and on BUF for DEC), where it does not
fault, get the same result, whatever else they hold. -/
def Obligations.ResultsDependOnOperandsOnly : Prop :=
  ∀ (i : Instr) (s s' t t' : State), (∀ r, r ∈ i.sources → s.reg r = s'.reg r) →
    (i.op = .dec → ∀ a, a < 32 → s.buf.read a = s'.buf.read a) → exec i s = .next t → exec i s' = .next t' →
    KeepsFaultRecord s t → s.status.fault = false →
    (∀ rd, i.dest = some rd → t.reg rd = t'.reg rd) ∧
    (i.op = .eq ∨ i.op = .isneg → t.status.res = t'.status.res) ∧ (i.op = .dec → t.status.sign = t'.status.sign) ∧
    (i.op = .sqrt → t.status.noroot = t'.status.noroot) ∧ (i.op = .enc → ∀ a, a < 32 → t.buf.read a = t'.buf.read a)

/-- The invariant is kept by every step, from every state that has it. Derived from R36, R37, R41, R200 to R204 and R230. Two clauses rest
on the model's own choices: BUF as a canonical list of cells (log 11; R50 gives bytes with marks), and the reset values while reset is
held, since the reset line's levels and the stop of accesses between them are the model's (log 2). -/
def Obligations.StepKeepsInv : Prop := ∀ s t : State, Inv s → step s = .next t → Inv t

/-- The state after reset has the invariant. Derived from R41; the canonical list of BUF (log 11) and the released reset line
(log 2) are the model's choices. -/
def Obligations.ResetHasInv : Prop := Inv State.reset

/-- R230. Asserting reset puts every piece of state into its reset value (R41), from any state; no other event
clears FAULT. -/
def Obligations.ResetRestoresState : Prop :=
  (∀ (s : State) (rest : List HostEvent), s.host = .resetLine true :: rest → ∃ t, step s = .next t ∧ AtReset t ∧ t.host = rest) ∧
  (∀ s t : State, step s = .next t → s.status.fault = true → t.status.fault = false → s.host.head? = some (.resetLine true))

/-- Reset asserted and then released leaves the FAU with its reset values, ready for accesses. Derived from R230, R231 and R232; that
reset has two levels is the model's choice (log 2). -/
def Obligations.ReleasedResetIsReady : Prop :=
  ∀ (s : State) (rest : List HostEvent), s.host = .resetLine true :: .resetLine false :: rest →
    ∃ t u, step s = .next t ∧ step t = .next u ∧ AtReset u ∧ u.resetHeld = false ∧ u.host = rest

/-- With no event left the FAU is idle and all state is retained. Derived from R217 and R231 (log 1). -/
def Obligations.IdleRetainsState : Prop := ∀ s : State, s.host = [] → step s = .next s

/-- Each step takes exactly the next event of the host's order. Derived from R62; that the events still to come are a list in State, one
taken per step, is the model's choice (log 1). -/
def Obligations.StepTakesOneEvent : Prop :=
  ∀ (s t : State) (e : HostEvent) (rest : List HostEvent), s.host = e :: rest → step s = .next t → t.host = rest

/-- A BUF byte write is seen by the next read of that byte, marks it written, and changes no other byte and nothing else. Derived from
R58 and R63. -/
def Obligations.BufferWriteThenRead : Prop :=
  ∀ (s : State) (i : Fin 32) (off : Fin 64) (b : Byte) (rest : List HostEvent), s.resetHeld = false → off.val = 32 + i.val →
    s.host = .write8 off b :: .read8 off :: rest →
    ∃ t u, step s = .next t ∧ step t = .next u ∧ u.readData = some (.byte b) ∧ u.host = rest ∧ u.buf = t.buf ∧
      t.buf.read i = some b ∧ (∀ a, a ≠ i.val → t.buf.read a = s.buf.read a) ∧
      KeepsRegs s t ∧ t.status = s.status ∧ t.fcmd = s.fcmd ∧ t.draws = s.draws

/-- No host read changes a register, STATUS, FCMD or BUF. Derived from R58. -/
def Obligations.ReadsHaveNoSideEffect : Prop :=
  ∀ (s t : State) (off : Fin 64), step s = .next t →
    (s.host.head? = some (.read8 off) ∨ s.host.head? = some (.read16 off) ∨ s.host.head? = some (.read32 off)) →
    t.f = s.f ∧ t.status = s.status ∧ t.fcmd = s.fcmd ∧ t.buf = s.buf ∧ t.resetHeld = s.resetHeld

/-- A read of an unwritten BUF byte returns a free draw, a fresh one each time, and leaves the byte unwritten. Derived from R60, whose
DEC sentence stands elsewhere; the value Config.freeByte has no body (log 4). -/
def Obligations.UnwrittenByteReadsFree : Prop :=
  ∀ (s : State) (i : Fin 32) (off : Fin 64) (rest : List HostEvent), s.resetHeld = false → off.val = 32 + i.val →
    s.buf.read i = none → s.host = .read8 off :: .read8 off :: rest →
    ∃ t u, step s = .next t ∧ step t = .next u ∧
      t.readData = some (.byte (Config.freeByte s.draws)) ∧ u.readData = some (.byte (Config.freeByte (s.draws + 1))) ∧
      u.draws = s.draws + 2 ∧ u.buf = s.buf

/-- The three register ports: CMD reads as 0; STATUS and FCMD read as their words, and writes to them are ignored. Derived from R32, R37,
R38, R51. -/
def Obligations.RegisterPorts : Prop :=
  ∀ (s : State) (rest : List HostEvent) (x : BitVec 32), s.resetHeld = false →
    (s.host = .read32 0 :: rest → step s = .next { s with host := rest, readData := some (.word 0) }) ∧
    (s.host = .read32 4 :: rest → step s = .next { s with host := rest, readData := some (.word s.status.word) }) ∧
    (s.host = .read32 8 :: rest → step s = .next { s with host := rest, readData := some (.word s.fcmd) }) ∧
    (s.host = .write32 4 x :: rest → step s = .next { s with host := rest }) ∧
    (s.host = .write32 8 x :: rest → step s = .next { s with host := rest })

/-- The layout of STATUS: RES, SIGN, NOROOT, FAULT in bits 0 to 3, FCAUSE in 7:4 with the codes 0 to 3, FREG in 11:8, and 31:12 zero.
Derived from R32. -/
def Obligations.StatusLayout : Prop :=
  ∀ t : Status, t.word.toNat = t.res.toNat + 2 * t.sign.toNat + 4 * t.noroot.toNat + 8 * t.fault.toNat
    + 16 * (match t.fcause with | .noFault => 0 | .illegalCmd => 1 | .uninitReg => 2 | .uninitBuf => 3) + 256 * t.freg.val

/-- R59. At the reserved offsets 0x0C to 0x1F, reads return 0 and writes are ignored: bytes, and aligned words. -/
def Obligations.ReservedOffsets : Prop :=
  ∀ (s : State) (rest : List HostEvent) (off : Fin 64), s.resetHeld = false → 0x0C ≤ off.val → off.val < 0x20 →
    (s.host = .read8 off :: rest → step s = .next { s with host := rest, readData := some (.byte 0) }) ∧
    (∀ b, s.host = .write8 off b :: rest → step s = .next { s with host := rest }) ∧
    (off.val % 4 = 0 → s.host = .read32 off :: rest →
      step s = .next { s with host := rest, readData := some (.word 0) }) ∧
    (∀ w, off.val % 4 = 0 → s.host = .write32 off w :: rest → step s = .next { s with host := rest })

/-- The accesses R56 names are refused: 8 or 16 bits at the registers, 16 or 32 bits at BUF, and a misaligned word that reaches a
register or BUF. Derived from R56; refusing them under one name is the model's choice (log 8). The Lean refuses a 16-bit access at the
reserved offsets too: that clause is the model's deduction from R55 and R56 (log 8). A misaligned word wholly in the reserved offsets
is no case of this statement (log 9). -/
def Obligations.WrongAccessesRefused : Prop :=
  ∀ (s : State) (e : HostEvent) (rest : List HostEvent) (off : Fin 64), s.resetHeld = false → s.host = e :: rest →
    ((∃ h, e = .read16 off ∨ e = .write16 off h) ∨
     (off.val < 0x0C ∧ ∃ b, e = .read8 off ∨ e = .write8 off b) ∨
     ((0x20 ≤ off.val ∨ (off.val % 4 ≠ 0 ∧ (off.val < 0x0C ∨ 0x1C < off.val))) ∧ ∃ w, e = .read32 off ∨ e = .write32 off w)) →
    step s = .refused .hostAccess

/-- Derived from R52 and R51. The window is the 64 bytes at FAU_BASE, which is 64-byte aligned. -/
def Obligations.WindowAtBase : Prop :=
  Config.fauBase % 64 = 0 ∧ (∀ off : Fin 64, windowOffset (Config.fauBase + off.val) = some off) ∧
  (∀ a, (a < Config.fauBase ∨ Config.fauBase + 64 ≤ a) → windowOffset a = none)

/-- Between the assertion and the release of reset no window access has a meaning. Derived: 93_implementation_defined.md I18 treats it
as stuck; that the reset line has levels is the model's choice (log 2). -/
def Obligations.HeldResetStopsAccesses : Prop :=
  ∀ (s : State) (e : HostEvent) (rest : List HostEvent), s.resetHeld = true → s.host = e :: rest → (∀ l, e ≠ .resetLine l) →
    step s = .fault .resetHeld
end

