-- ==== Sys2Proof/Laws/Assembler.lean ====
section
/-!
SUPPORT. The assembler's names read back (R77).
-/

namespace Sys2Proof.Machine

@[simp] theorem valueOf_regText (r : Reg) : valueOf regNames (regText r) = some r := by
  revert r
  decide

theorem valueOf_constName (k : ConstIndex) (h : k.val ≤ 6) : valueOf constNames (nameOf constNames k) = some k := by
  revert k
  decide

@[simp] theorem opOfText_text (o : Op) : opOfText (Op.text o) = some o := by
  cases o <;> decide

end Sys2Proof.Machine
end

