-- ==== Sys2Proof/Laws/Decode.lean ====
section
/-!
SUPPORT. The fields of a packed word, a word as the pack of its fields, and the cases of the decoder.
-/

namespace Sys2Proof

/-- A packed word as a number: each field at its place (R70). -/
theorem packWord_toNat (op : BitVec 8) (rd ra rb : BitVec 4) :
    (packWord op rd ra rb).toNat
      = op.toNat * 2 ^ 24 + rd.toNat * 2 ^ 20 + ra.toNat * 2 ^ 16 + rb.toNat * 2 ^ 12 := by
  have h : ∀ (m n : Nat) (x : BitVec m) (y : BitVec n), (x ++ y).toNat = x.toNat * 2 ^ n + y.toNat := by
    intro m n x y
    rw [BitVec.toNat_append, ← Nat.shiftLeft_add_eq_or_of_lt y.isLt, Nat.shiftLeft_eq]
  show ((op ++ rd ++ ra ++ rb ++ 0#12 : BitVec (8 + 4 + 4 + 4 + 12))).toNat = _
  rw [h, h, h, h]
  simp only [BitVec.toNat_ofNat]
  omega

/-- Each field as bits of the word's number: v[hi:lo] (R10). -/
theorem fields_toNat (w : CmdWord) :
    (opField w).toNat = w.toNat / 2 ^ 24 ∧ (rdField w).toNat = w.toNat / 2 ^ 20 % 16 ∧
    (raField w).toNat = w.toNat / 2 ^ 16 % 16 ∧ (rbField w).toNat = w.toNat / 2 ^ 12 % 16 ∧
    (zeroField w).toNat = w.toNat % 4096 := by
  have := w.isLt
  simp only [opField, rdField, raField, rbField, zeroField, BitVec.extractLsb'_toNat, Nat.shiftRight_eq_div_pow]
  refine ⟨?_, trivial, trivial, trivial, by simp⟩
  omega

@[simp] theorem opField_packWord (op : BitVec 8) (rd ra rb : BitVec 4) : opField (packWord op rd ra rb) = op := by
  apply BitVec.eq_of_toNat_eq
  have := op.isLt; have := rd.isLt; have := ra.isLt; have := rb.isLt
  rw [(fields_toNat _).1, packWord_toNat]
  omega

@[simp] theorem rdField_packWord (op : BitVec 8) (rd ra rb : BitVec 4) : rdField (packWord op rd ra rb) = rd := by
  apply BitVec.eq_of_toNat_eq
  have := rd.isLt; have := ra.isLt; have := rb.isLt
  rw [(fields_toNat _).2.1, packWord_toNat]
  omega

@[simp] theorem raField_packWord (op : BitVec 8) (rd ra rb : BitVec 4) : raField (packWord op rd ra rb) = ra := by
  apply BitVec.eq_of_toNat_eq
  have := ra.isLt; have := rb.isLt
  rw [(fields_toNat _).2.2.1, packWord_toNat]
  omega

@[simp] theorem rbField_packWord (op : BitVec 8) (rd ra rb : BitVec 4) : rbField (packWord op rd ra rb) = rb := by
  apply BitVec.eq_of_toNat_eq
  have := rb.isLt
  rw [(fields_toNat _).2.2.2.1, packWord_toNat]
  omega

@[simp] theorem zeroField_packWord (op : BitVec 8) (rd ra rb : BitVec 4) : zeroField (packWord op rd ra rb) = 0 := by
  apply BitVec.eq_of_toNat_eq
  rw [(fields_toNat _).2.2.2.2, packWord_toNat]
  show _ = 0
  omega

/-- A word whose reserved field is 0 is the pack of its other fields. -/
theorem packWord_fields (w : CmdWord) (h : zeroField w = 0) :
    packWord (opField w) (rdField w) (raField w) (rbField w) = w := by
  apply BitVec.eq_of_toNat_eq
  obtain ⟨h1, h2, h3, h4, h5⟩ := fields_toNat w
  have hz : (zeroField w).toNat = 0 := by rw [h]; rfl
  rw [packWord_toNat, h1, h2, h3, h4]
  omega

/-- Two words are equal where their five fields are. -/
theorem eq_iff_fields (v w : CmdWord) :
    v = w ↔ opField v = opField w ∧ rdField v = rdField w ∧ raField v = raField w ∧ rbField v = rbField w
      ∧ zeroField v = zeroField w := by
  constructor
  · rintro rfl
    exact ⟨rfl, rfl, rfl, rfl, rfl⟩
  · rintro ⟨h1, h2, h3, h4, h5⟩
    apply BitVec.eq_of_toNat_eq
    obtain ⟨v1, v2, v3, v4, v5⟩ := fields_toNat v
    obtain ⟨w1, w2, w3, w4, w5⟩ := fields_toNat w
    rw [h1] at v1
    rw [h2] at v2
    rw [h3] at v3
    rw [h4] at v4
    rw [h5] at v5
    omega

/-- A word under a mask, field by field. -/
theorem and_eq_iff_fields (w m v : CmdWord) :
    w &&& m = v ↔ opField w &&& opField m = opField v ∧ rdField w &&& rdField m = rdField v
      ∧ raField w &&& raField m = raField v ∧ rbField w &&& rbField m = rbField v
      ∧ zeroField w &&& zeroField m = zeroField v := by
  rw [eq_iff_fields]
  simp only [opField, rdField, raField, rbField, zeroField, BitVec.extractLsb'_and]

@[simp] theorem indexOf_fieldOf (r : Fin 16) : indexOf (fieldOf r) = r := rfl

@[simp] theorem fieldOf_indexOf (b : BitVec 4) : fieldOf (indexOf b) = b := rfl

theorem indexOf_val (b : BitVec 4) : (indexOf b).val = b.toNat := rfl

@[simp] theorem opOfCode_code (o : Op) : opOfCode o.code = some o := by cases o <;> rfl

theorem opOfCode_eq_some (c : BitVec 8) (o : Op) : opOfCode c = some o ↔ o.code = c := by
  constructor
  · intro h
    simpa using List.find?_some h
  · rintro rfl
    exact opOfCode_code o

theorem opOfCode_eq_none (c : BitVec 8) : opOfCode c = none ↔ ∀ o : Op, o.code ≠ c := by
  constructor
  · intro h o e
    rw [← e, opOfCode_code] at h
    cases h
  · intro h
    cases e : opOfCode c with
    | none => rfl
    | some o => exact absurd ((opOfCode_eq_some c o).1 e) (h o)

/-- All that decoding a word to a command means. -/
theorem decode_eq_ok_iff (w : CmdWord) (i : Instr) :
    decode w = .ok i ↔
      ∃ o : Op, o.code = opField w ∧ zeroField w = 0 ∧ o.form.unusedZero w = true ∧ i = o.build w ∧ i.wellFormed = true := by
  unfold decode
  constructor
  · intro h
    split at h
    · cases h
    · next o ho =>
      refine ⟨o, (opOfCode_eq_some _ _).1 ho, ?_⟩
      split at h
      · cases h
      · next h1 =>
        split at h
        · cases h
        · next h2 =>
          split at h
          · cases h
          · next h3 =>
            cases h
            exact ⟨by simpa using h1, by simpa using h2, rfl, by simpa using h3⟩
  · rintro ⟨o, ho, hz, hu, rfl, hw⟩
    rw [(opOfCode_eq_some _ _).2 ho]
    simp [hz, hu, hw]

/-- All that makes a word no command. -/
theorem decode_eq_error_iff (w : CmdWord) :
    (∃ e, decode w = .error e) ↔
      ∀ o : Op, o.code = opField w → zeroField w ≠ 0 ∨ o.form.unusedZero w = false ∨ (o.build w).wellFormed = false := by
  constructor
  · rintro ⟨e, he⟩ o ho
    by_contra hc
    push Not at hc
    have := (decode_eq_ok_iff w (o.build w)).2
      ⟨o, ho, hc.1, by simpa using hc.2.1, rfl, by simpa using hc.2.2⟩
    rw [this] at he
    cases he
  · intro h
    cases hd : decode w with
    | error e => exact ⟨e, rfl⟩
    | ok i =>
      obtain ⟨o, ho, hz, hu, rfl, hw⟩ := (decode_eq_ok_iff w i).1 hd
      rcases h o ho with h | h | h
      · exact absurd hz h
      · rw [hu] at h; cases h
      · rw [hw] at h; cases h

@[simp] theorem build_op (w : CmdWord) (o : Op) : (o.build w).op = o := by cases o <;> rfl

end Sys2Proof
end

