-- ==== Sys2Proof/Laws/Field.lean ====
section
/-!
SUPPORT. What the field and byte operations compute: one lemma per operation.
-/

namespace Sys2Proof.Machine

theorem modq_val (v : Int) : ((modq v).val : Int) = v % q := by
  have h : (0 : Int) < (q : Int) := by exact_mod_cast q_pos
  exact Int.toNat_of_nonneg (Int.emod_nonneg v h.ne')

/-- modq of a natural number. -/
theorem modq_val_nat (n : Nat) : (modq (n : Int)).val = n % q := by
  have := modq_val (n : Int)
  exact_mod_cast this

theorem addq_val (a b : Fq) : (addq a b).val = (a.val + b.val) % q := by
  have := modq_val_nat (a.val + b.val)
  simpa [addq, toInt] using this

theorem mulq_val (a b : Fq) : (mulq a b).val = a.val * b.val % q := by
  have := modq_val_nat (a.val * b.val)
  simpa [mulq, toInt] using this

theorem subq_val (a b : Fq) : ((subq a b).val : Int) = ((a.val : Int) - b.val) % q := modq_val _

/-- A register's value is its own residue. -/
theorem modq_toInt (a : Fq) : modq (toInt a) = a := by
  apply Fin.ext
  rw [toInt, modq_val_nat]
  exact Nat.mod_eq_of_lt a.isLt

/-- The squaring chain computes the power (R141: any chain that does is conforming). -/
theorem powMod_eq (m a fuel e : Nat) (h : e < 2 ^ fuel) : powMod m a fuel e = a ^ e % m := by
  induction fuel generalizing e with
  | zero =>
    have : e = 0 := by simpa using h
    simp [powMod, this]
  | succ fuel ih =>
    have hh : e / 2 < 2 ^ fuel := by rw [pow_succ] at h; omega
    rw [powMod]
    simp only [ih _ hh]
    have hsq : a ^ (e / 2) % m * (a ^ (e / 2) % m) % m = a ^ (e / 2 + e / 2) % m := by
      rw [← Nat.mul_mod, ← pow_add]
    split
    · next h1 =>
      rw [hsq, Nat.mod_mul_mod, ← pow_succ]
      congr 2; omega
    · next h1 =>
      rw [hsq]
      congr 2; omega

theorem powq_val (a : Fq) (e : Nat) (h : e < 2 ^ 256) : (powq a e).val = a.val ^ e % q := by
  rw [powq, powMod_eq _ _ _ _ h, modq_val_nat, Nat.mod_mod]

theorem invExponent_lt : invExponent < 2 ^ 256 := by decide

theorem sqrtExponent_lt : sqrtExponent < 2 ^ 256 := by decide

theorem leValue_lt (bs : List Byte) : leValue bs < 256 ^ bs.length := by
  induction bs with
  | nil => simp [leValue]
  | cons b bs ih =>
    have := b.isLt
    rw [leValue, List.length_cons, pow_succ]
    omega

@[simp] theorem leBytes_length (n v : Nat) : (leBytes n v).length = n := by
  induction n generalizing v with
  | zero => rfl
  | succ n ih => simp [leBytes, ih]

/-- Byte i of LEbytes(v, n). -/
theorem leBytes_getElem? (n v i : Nat) (h : i < n) : (leBytes n v)[i]? = some (BitVec.ofNat 8 (v / 256 ^ i)) := by
  induction n generalizing v i with
  | zero => omega
  | succ n ih =>
    cases i with
    | zero => simp [leBytes]
    | succ i =>
      rw [leBytes, List.getElem?_cons_succ, ih _ _ (by omega), Nat.div_div_eq_div_mul, pow_succ, Nat.mul_comm 256]

/-- LE(LEbytes(v, n)) = v for 0 ≤ v < 256^n (R11). -/
theorem leValue_leBytes (n v : Nat) (h : v < 256 ^ n) : leValue (leBytes n v) = v := by
  induction n generalizing v with
  | zero => simp at h; simp [leBytes, leValue, h]
  | succ n ih =>
    rw [pow_succ] at h
    rw [leBytes, leValue, ih _ (by omega), BitVec.toNat_ofNat]
    omega

/-- LEbytes(LE(B), n) = B. -/
theorem leBytes_leValue (bs : List Byte) : leBytes bs.length (leValue bs) = bs := by
  induction bs with
  | nil => rfl
  | cons b bs ih =>
    have := b.isLt
    rw [List.length_cons, leBytes, leValue, show (b.toNat + 256 * leValue bs) / 256 = leValue bs by omega, ih]
    congr 1
    apply BitVec.eq_of_toNat_eq
    rw [BitVec.toNat_ofNat]
    omega

/-- LE as the sum of R11. -/
theorem leValue_map_range (B : Nat → Byte) (n : Nat) :
    leValue ((List.range n).map B) = ∑ i ∈ Finset.range n, (B i).toNat * 256 ^ i := by
  induction n generalizing B with
  | zero => rfl
  | succ n ih =>
    rw [List.range_succ_eq_map, List.map_cons, List.map_map, leValue, Finset.sum_range_succ']
    have := ih (B ∘ Nat.succ)
    rw [this, Finset.mul_sum, Nat.add_comm]
    congr 1
    · apply Finset.sum_congr rfl
      intro i _
      simp only [Function.comp_apply, Nat.succ_eq_add_one, pow_succ]
      ring
    · simp

theorem diffBytes_foldl (acc : Byte) (l : List Byte) : l.foldl (· ||| ·) acc = 0 ↔ acc = 0 ∧ ∀ x ∈ l, x = 0 := by
  induction l generalizing acc with
  | nil => simp
  | cons b l ih =>
    have h : acc ||| b = 0 ↔ acc = 0 ∧ b = 0 := BitVec.or_eq_zero_iff
    rw [List.foldl_cons, ih, List.forall_mem_cons, h, and_assoc]

/-- The accumulated difference of two sequences of one length is 0 exactly where they are equal. -/
theorem diffBytes_eq_zero_iff (a b : List Byte) (h : a.length = b.length) : diffBytes a b = 0 ↔ a = b := by
  rw [diffBytes, diffBytes_foldl]
  induction a generalizing b with
  | nil => cases b <;> simp_all
  | cons x a ih =>
    cases b with
    | nil => simp at h
    | cons y b =>
      have := ih b (by simpa using h)
      simp only [true_and] at this ⊢
      have hx : x ^^^ y = 0 ↔ x = y := BitVec.xor_eq_zero_iff
      rw [List.zipWith_cons_cons, List.forall_mem_cons, this, hx, List.cons.injEq]

/-- q < 2^255, so a value needs 255 bits (R27). -/
theorem q_lt : q < 2 ^ 255 := by decide

theorem sqrtm1_val :
    sqrtm1.val = 19681161376707505956807079304988542015446066515923890162744021073123829784752 := by decide

/-- SQRTM1 squares to -1 (R30). -/
theorem sqrtm1_sq : sqrtm1.val * sqrtm1.val % q = q - 1 := by rw [sqrtm1_val]; decide

end Sys2Proof.Machine
end

