-- ==== Sys2Proof/Laws/Memory.lean ====
section
/-!
SUPPORT. BUF: reads after writes, and that every operation keeps the canonical form.
-/

namespace Sys2Proof.Machine

@[simp] theorem Memory.read_nil (a : Nat) : Memory.read [] a = none := rfl

@[simp] theorem Memory.read_write_self (m : Memory) (a : Nat) (b : Byte) : (Memory.write m a b).read a = some b := by
  induction m with
  | nil => simp [Memory.write, Memory.read]
  | cons c m ih =>
    obtain ⟨x, y⟩ := c
    unfold Memory.write
    split
    · simp [Memory.read]
    · split
      · simp [Memory.read]
      · next h => simpa [Memory.read, Ne.symm h] using ih

theorem Memory.read_write_ne (m : Memory) (a a' : Nat) (b : Byte) (h : a' ≠ a) :
    (Memory.write m a b).read a' = m.read a' := by
  induction m with
  | nil => simp [Memory.write, Memory.read, Ne.symm h]
  | cons c m ih =>
    obtain ⟨x, y⟩ := c
    unfold Memory.write
    split
    · simp [Memory.read, Ne.symm h]
    · split
      · next h2 => subst h2; simp [Memory.read, Ne.symm h]
      · simp only [Memory.read, ih]

/-- A read finds nothing below the first offset. -/
theorem Memory.read_eq_none_of_wfFrom (m : Memory) (lo a : Nat) (h : Memory.wfFrom lo m = true) (ha : a < lo) :
    m.read a = none := by
  induction m generalizing lo with
  | nil => rfl
  | cons c m ih =>
    obtain ⟨x, y⟩ := c
    simp only [Memory.wfFrom, Bool.and_eq_true, decide_eq_true_eq] at h
    have hx : x ≠ a := by omega
    simpa [Memory.read, hx] using ih (x + 1) h.2 (by omega)

theorem Memory.wfFrom_mono (m : Memory) (lo lo' : Nat) (h : Memory.wfFrom lo m = true) (hl : lo' ≤ lo) :
    Memory.wfFrom lo' m = true := by
  cases m with
  | nil => rfl
  | cons c m =>
    obtain ⟨x, y⟩ := c
    simp only [Memory.wfFrom, Bool.and_eq_true, decide_eq_true_eq] at h ⊢
    exact ⟨⟨by omega, h.1.2⟩, h.2⟩

theorem Memory.wfFrom_write (m : Memory) (lo a : Nat) (b : Byte) (h : Memory.wfFrom lo m = true) (hl : lo ≤ a) (ha : a < 32) :
    Memory.wfFrom lo (Memory.write m a b) = true := by
  induction m generalizing lo with
  | nil => simp [Memory.write, Memory.wfFrom, hl, ha]
  | cons c m ih =>
    obtain ⟨x, y⟩ := c
    simp only [Memory.wfFrom, Bool.and_eq_true, decide_eq_true_eq] at h
    obtain ⟨⟨h1, h2⟩, h3⟩ := h
    unfold Memory.write
    split
    · simp only [Memory.wfFrom, Bool.and_eq_true, decide_eq_true_eq]
      exact ⟨⟨hl, ha⟩, ⟨by omega, h2⟩, h3⟩
    · split
      · next h4 => subst h4; simp only [Memory.wfFrom, Bool.and_eq_true, decide_eq_true_eq]; exact ⟨⟨hl, ha⟩, h3⟩
      · simp only [Memory.wfFrom, Bool.and_eq_true, decide_eq_true_eq]
        exact ⟨⟨h1, h2⟩, ih (x + 1) h3 (by omega)⟩

/-- A BUF byte write keeps the canonical form. -/
theorem Memory.wf_write (m : Memory) (a : Nat) (b : Byte) (h : m.wf = true) (ha : a < 32) : (m.write a b).wf = true :=
  Memory.wfFrom_write m 0 a b h (Nat.zero_le a) ha

/-- Consecutive BUF byte writes keep the canonical form. -/
theorem Memory.wf_writeBytes (bs : List Byte) (m : Memory) (a : Nat) (h : m.wf = true) (ha : a + bs.length ≤ 32) :
    (m.writeBytes a bs).wf = true := by
  induction bs generalizing m a with
  | nil => exact h
  | cons b bs ih =>
    simp only [List.length_cons] at ha
    exact ih _ _ (Memory.wf_write m a b h (by omega)) (by omega)

/-- No byte lies at or beyond offset 32. -/
theorem Memory.read_eq_none_of_wf (m : Memory) (a : Nat) (h : m.wf = true) (ha : 32 ≤ a) : m.read a = none := by
  suffices H : ∀ (m : Memory) lo, Memory.wfFrom lo m = true → m.read a = none from H m 0 h
  intro m
  induction m with
  | nil => intros; rfl
  | cons c m ih =>
    intro lo h
    obtain ⟨x, y⟩ := c
    simp only [Memory.wfFrom, Bool.and_eq_true, decide_eq_true_eq] at h
    have hx : x ≠ a := by omega
    simpa [Memory.read, hx] using ih (x + 1) h.2

/-- Equal reads make equal memories, in the canonical form: equal BUFs are equal data. -/
theorem Memory.ext_of_wf (m m' : Memory) (h : m.wf = true) (h' : m'.wf = true) (e : ∀ a, m.read a = m'.read a) : m = m' := by
  suffices H : ∀ (m m' : Memory) lo, Memory.wfFrom lo m = true → Memory.wfFrom lo m' = true →
      (∀ a, m.read a = m'.read a) → m = m' from H m m' 0 h h' e
  intro m
  induction m with
  | nil =>
    intro m' lo _ _ e
    cases m' with
    | nil => rfl
    | cons c m' => simpa [Memory.read] using e c.1
  | cons c m ih =>
    intro m' lo h h' e
    obtain ⟨x, y⟩ := c
    cases m' with
    | nil => simpa [Memory.read] using e x
    | cons c' m' =>
      obtain ⟨x', y'⟩ := c'
      simp only [Memory.wfFrom, Bool.and_eq_true, decide_eq_true_eq] at h h'
      have hx : x = x' := by
        rcases Nat.lt_trichotomy x x' with hl | hl | hl
        · have := e x
          rw [Memory.read, if_pos rfl, Memory.read, if_neg (by omega),
            Memory.read_eq_none_of_wfFrom m' (x' + 1) x h'.2 (by omega)] at this
          simp at this
        · exact hl
        · have := e x'
          rw [Memory.read, if_neg (by omega), Memory.read, if_pos rfl,
            Memory.read_eq_none_of_wfFrom m (x + 1) x' h.2 (by omega)] at this
          simp at this
      subst hx
      have hy : y = y' := by simpa [Memory.read] using e x
      subst hy
      have : m = m' := by
        refine ih m' (x + 1) h.2 h'.2 fun a => ?_
        by_cases ha : x = a
        · subst ha
          rw [Memory.read_eq_none_of_wfFrom m (x + 1) x h.2 (by omega),
            Memory.read_eq_none_of_wfFrom m' (x + 1) x h'.2 (by omega)]
        · simpa [Memory.read, ha] using e a
      rw [this]

/-- MemWrite leaves every offset below its first one alone. -/
theorem Memory.read_writeBytes_lt (bs : List Byte) (m : Memory) (a a' : Nat) (h : a' < a) :
    (m.writeBytes a bs).read a' = m.read a' := by
  induction bs generalizing m a with
  | nil => rfl
  | cons b bs ih =>
    rw [Memory.writeBytes, ih _ _ (by omega), Memory.read_write_ne _ _ _ _ (by omega)]

/-- MemWrite puts byte i of the sequence at offset a + i. -/
theorem Memory.read_writeBytes (bs : List Byte) (m : Memory) (a i : Nat) (h : i < bs.length) :
    (m.writeBytes a bs).read (a + i) = bs[i]? := by
  induction bs generalizing m a i with
  | nil => simp at h
  | cons b bs ih =>
    cases i with
    | zero => rw [Memory.writeBytes, Nat.add_zero, Memory.read_writeBytes_lt _ _ _ _ (by omega)]; simp
    | succ i =>
      have := ih (m.write a b) (a + 1) i (by simpa using h)
      rw [Memory.writeBytes, show a + (i + 1) = a + 1 + i by omega, this]
      simp

/-- MemWrite leaves every offset past its last one alone. -/
theorem Memory.read_writeBytes_ge (bs : List Byte) (m : Memory) (a a' : Nat) (h : a + bs.length ≤ a') :
    (m.writeBytes a bs).read a' = m.read a' := by
  induction bs generalizing m a with
  | nil => rfl
  | cons b bs ih =>
    simp only [List.length_cons] at h
    rw [Memory.writeBytes, ih _ _ (by omega), Memory.read_write_ne _ _ _ _ (by omega)]

/-- MemRead answers the bytes where all are written. -/
theorem Memory.readBytes_eq_some (m : Memory) (a n : Nat) (B : Nat → Byte) (h : ∀ i, i < n → m.read (a + i) = some (B i)) :
    m.readBytes a n = some ((List.range n).map B) := by
  induction n generalizing a B with
  | zero => rfl
  | succ n ih =>
    have h0 : m.read a = some (B 0) := by simpa using h 0 (by omega)
    have hs : m.readBytes (a + 1) n = some ((List.range n).map fun i => B (i + 1)) :=
      ih (a + 1) (fun i => B (i + 1)) fun i hi => by
        have := h (i + 1) (by omega)
        rwa [show a + (i + 1) = a + 1 + i by omega] at this
    rw [Memory.readBytes, h0, hs, List.range_succ_eq_map]
    simp [Function.comp_def]

/-- MemRead answers none exactly where some byte is unwritten. -/
theorem Memory.readBytes_eq_none_iff (m : Memory) (a n : Nat) :
    m.readBytes a n = none ↔ ∃ i, i < n ∧ m.read (a + i) = none := by
  induction n generalizing a with
  | zero => simp [Memory.readBytes]
  | succ n ih =>
    rw [Memory.readBytes]
    constructor
    · intro h
      cases h0 : m.read a with
      | none => exact ⟨0, by omega, by simpa using h0⟩
      | some b =>
        cases h1 : m.readBytes (a + 1) n with
        | some bs => simp [h0, h1] at h
        | none =>
          obtain ⟨i, hi, e⟩ := (ih (a + 1)).1 h1
          exact ⟨i + 1, by omega, by rwa [show a + (i + 1) = a + 1 + i by omega]⟩
    · rintro ⟨i, hi, e⟩
      cases i with
      | zero => simp only [Nat.add_zero] at e; simp [e]
      | succ i =>
        have h1 : m.readBytes (a + 1) n = none :=
          (ih (a + 1)).2 ⟨i, by omega, by rwa [show a + 1 + i = a + (i + 1) by omega]⟩
        rw [h1]
        split <;> simp_all

theorem State.reset_buf_wf : State.reset.buf.wf = true := rfl

end Sys2Proof.Machine
end

