-- ==== Sys2Proof/Laws/State.lean ====
section
/-!
SUPPORT. What each update of the state leaves in each field, and what each register then reads.
-/

namespace Sys2Proof.Machine

@[simp] theorem State.writeReg_f (s : State) (i : Reg) (v : Fq) : (s.writeReg i v).f = s.f.set i.val (some v) := rfl
@[simp] theorem State.writeReg_status (s : State) (i : Reg) (v : Fq) : (s.writeReg i v).status = s.status := rfl
@[simp] theorem State.writeReg_fcmd (s : State) (i : Reg) (v : Fq) : (s.writeReg i v).fcmd = s.fcmd := rfl
@[simp] theorem State.writeReg_buf (s : State) (i : Reg) (v : Fq) : (s.writeReg i v).buf = s.buf := rfl
@[simp] theorem State.writeReg_resetHeld (s : State) (i : Reg) (v : Fq) : (s.writeReg i v).resetHeld = s.resetHeld := rfl
@[simp] theorem State.writeReg_host (s : State) (i : Reg) (v : Fq) : (s.writeReg i v).host = s.host := rfl
@[simp] theorem State.writeReg_readData (s : State) (i : Reg) (v : Fq) : (s.writeReg i v).readData = s.readData := rfl
@[simp] theorem State.writeReg_draws (s : State) (i : Reg) (v : Fq) : (s.writeReg i v).draws = s.draws := rfl

@[simp] theorem State.clearReg_f (s : State) (i : Reg) : (s.clearReg i).f = s.f.set i.val none := rfl
@[simp] theorem State.clearReg_status (s : State) (i : Reg) : (s.clearReg i).status = s.status := rfl
@[simp] theorem State.clearReg_fcmd (s : State) (i : Reg) : (s.clearReg i).fcmd = s.fcmd := rfl
@[simp] theorem State.clearReg_buf (s : State) (i : Reg) : (s.clearReg i).buf = s.buf := rfl
@[simp] theorem State.clearReg_resetHeld (s : State) (i : Reg) : (s.clearReg i).resetHeld = s.resetHeld := rfl
@[simp] theorem State.clearReg_host (s : State) (i : Reg) : (s.clearReg i).host = s.host := rfl
@[simp] theorem State.clearReg_readData (s : State) (i : Reg) : (s.clearReg i).readData = s.readData := rfl
@[simp] theorem State.clearReg_draws (s : State) (i : Reg) : (s.clearReg i).draws = s.draws := rfl

@[simp] theorem State.writeBuf_f (s : State) (a : Nat) (b : Byte) : (s.writeBuf a b).f = s.f := rfl
@[simp] theorem State.writeBuf_status (s : State) (a : Nat) (b : Byte) : (s.writeBuf a b).status = s.status := rfl
@[simp] theorem State.writeBuf_fcmd (s : State) (a : Nat) (b : Byte) : (s.writeBuf a b).fcmd = s.fcmd := rfl
@[simp] theorem State.writeBuf_buf (s : State) (a : Nat) (b : Byte) : (s.writeBuf a b).buf = s.buf.write a b := rfl
@[simp] theorem State.writeBuf_resetHeld (s : State) (a : Nat) (b : Byte) : (s.writeBuf a b).resetHeld = s.resetHeld := rfl
@[simp] theorem State.writeBuf_host (s : State) (a : Nat) (b : Byte) : (s.writeBuf a b).host = s.host := rfl
@[simp] theorem State.writeBuf_readData (s : State) (a : Nat) (b : Byte) : (s.writeBuf a b).readData = s.readData := rfl
@[simp] theorem State.writeBuf_draws (s : State) (a : Nat) (b : Byte) : (s.writeBuf a b).draws = s.draws := rfl

@[simp] theorem State.writeBufBytes_f (s : State) (a : Nat) (bs : List Byte) : (s.writeBufBytes a bs).f = s.f := rfl
@[simp] theorem State.writeBufBytes_status (s : State) (a : Nat) (bs : List Byte) : (s.writeBufBytes a bs).status = s.status := rfl
@[simp] theorem State.writeBufBytes_fcmd (s : State) (a : Nat) (bs : List Byte) : (s.writeBufBytes a bs).fcmd = s.fcmd := rfl
@[simp] theorem State.writeBufBytes_buf (s : State) (a : Nat) (bs : List Byte) : (s.writeBufBytes a bs).buf = s.buf.writeBytes a bs := rfl
@[simp] theorem State.writeBufBytes_resetHeld (s : State) (a : Nat) (bs : List Byte) : (s.writeBufBytes a bs).resetHeld = s.resetHeld := rfl
@[simp] theorem State.writeBufBytes_host (s : State) (a : Nat) (bs : List Byte) : (s.writeBufBytes a bs).host = s.host := rfl
@[simp] theorem State.writeBufBytes_readData (s : State) (a : Nat) (bs : List Byte) : (s.writeBufBytes a bs).readData = s.readData := rfl
@[simp] theorem State.writeBufBytes_draws (s : State) (a : Nat) (bs : List Byte) : (s.writeBufBytes a bs).draws = s.draws := rfl

@[simp] theorem State.raise_f (s : State) (r : Raised) (w : CmdWord) : (s.raise r w).f = s.f := rfl
@[simp] theorem State.raise_status (s : State) (r : Raised) (w : CmdWord) : (s.raise r w).status = { s.status with fault := true, fcause := r.cause, freg := r.freg } := rfl
@[simp] theorem State.raise_fcmd (s : State) (r : Raised) (w : CmdWord) : (s.raise r w).fcmd = w := rfl
@[simp] theorem State.raise_buf (s : State) (r : Raised) (w : CmdWord) : (s.raise r w).buf = s.buf := rfl
@[simp] theorem State.raise_resetHeld (s : State) (r : Raised) (w : CmdWord) : (s.raise r w).resetHeld = s.resetHeld := rfl
@[simp] theorem State.raise_host (s : State) (r : Raised) (w : CmdWord) : (s.raise r w).host = s.host := rfl
@[simp] theorem State.raise_readData (s : State) (r : Raised) (w : CmdWord) : (s.raise r w).readData = s.readData := rfl
@[simp] theorem State.raise_draws (s : State) (r : Raised) (w : CmdWord) : (s.raise r w).draws = s.draws := rfl

@[simp] theorem State.setRes_f (s : State) (b : Bool) : (s.setRes b).f = s.f := rfl
@[simp] theorem State.setRes_status (s : State) (b : Bool) : (s.setRes b).status = { s.status with res := b } := rfl
@[simp] theorem State.setRes_fcmd (s : State) (b : Bool) : (s.setRes b).fcmd = s.fcmd := rfl
@[simp] theorem State.setRes_buf (s : State) (b : Bool) : (s.setRes b).buf = s.buf := rfl
@[simp] theorem State.setRes_resetHeld (s : State) (b : Bool) : (s.setRes b).resetHeld = s.resetHeld := rfl
@[simp] theorem State.setRes_host (s : State) (b : Bool) : (s.setRes b).host = s.host := rfl
@[simp] theorem State.setRes_readData (s : State) (b : Bool) : (s.setRes b).readData = s.readData := rfl
@[simp] theorem State.setRes_draws (s : State) (b : Bool) : (s.setRes b).draws = s.draws := rfl

@[simp] theorem State.setSign_f (s : State) (b : Bool) : (s.setSign b).f = s.f := rfl
@[simp] theorem State.setSign_status (s : State) (b : Bool) : (s.setSign b).status = { s.status with sign := b } := rfl
@[simp] theorem State.setSign_fcmd (s : State) (b : Bool) : (s.setSign b).fcmd = s.fcmd := rfl
@[simp] theorem State.setSign_buf (s : State) (b : Bool) : (s.setSign b).buf = s.buf := rfl
@[simp] theorem State.setSign_resetHeld (s : State) (b : Bool) : (s.setSign b).resetHeld = s.resetHeld := rfl
@[simp] theorem State.setSign_host (s : State) (b : Bool) : (s.setSign b).host = s.host := rfl
@[simp] theorem State.setSign_readData (s : State) (b : Bool) : (s.setSign b).readData = s.readData := rfl
@[simp] theorem State.setSign_draws (s : State) (b : Bool) : (s.setSign b).draws = s.draws := rfl

@[simp] theorem State.setNoroot_f (s : State) (b : Bool) : (s.setNoroot b).f = s.f := rfl
@[simp] theorem State.setNoroot_status (s : State) (b : Bool) : (s.setNoroot b).status = { s.status with noroot := b } := rfl
@[simp] theorem State.setNoroot_fcmd (s : State) (b : Bool) : (s.setNoroot b).fcmd = s.fcmd := rfl
@[simp] theorem State.setNoroot_buf (s : State) (b : Bool) : (s.setNoroot b).buf = s.buf := rfl
@[simp] theorem State.setNoroot_resetHeld (s : State) (b : Bool) : (s.setNoroot b).resetHeld = s.resetHeld := rfl
@[simp] theorem State.setNoroot_host (s : State) (b : Bool) : (s.setNoroot b).host = s.host := rfl
@[simp] theorem State.setNoroot_readData (s : State) (b : Bool) : (s.setNoroot b).readData = s.readData := rfl
@[simp] theorem State.setNoroot_draws (s : State) (b : Bool) : (s.setNoroot b).draws = s.draws := rfl

@[simp] theorem State.assertReset_f (s : State) : s.assertReset.f = State.reset.f := rfl
@[simp] theorem State.assertReset_status (s : State) : s.assertReset.status = Status.reset := rfl
@[simp] theorem State.assertReset_fcmd (s : State) : s.assertReset.fcmd = 0 := rfl
@[simp] theorem State.assertReset_buf (s : State) : s.assertReset.buf = [] := rfl
@[simp] theorem State.assertReset_resetHeld (s : State) : s.assertReset.resetHeld = true := rfl
@[simp] theorem State.assertReset_host (s : State) : s.assertReset.host = s.host := rfl
@[simp] theorem State.assertReset_readData (s : State) : s.assertReset.readData = s.readData := rfl
@[simp] theorem State.assertReset_draws (s : State) : s.assertReset.draws = s.draws := rfl

@[simp] theorem State.releaseReset_f (s : State) : s.releaseReset.f = s.f := rfl
@[simp] theorem State.releaseReset_status (s : State) : s.releaseReset.status = s.status := rfl
@[simp] theorem State.releaseReset_fcmd (s : State) : s.releaseReset.fcmd = s.fcmd := rfl
@[simp] theorem State.releaseReset_buf (s : State) : s.releaseReset.buf = s.buf := rfl
@[simp] theorem State.releaseReset_resetHeld (s : State) : s.releaseReset.resetHeld = false := rfl
@[simp] theorem State.releaseReset_host (s : State) : s.releaseReset.host = s.host := rfl
@[simp] theorem State.releaseReset_readData (s : State) : s.releaseReset.readData = s.readData := rfl
@[simp] theorem State.releaseReset_draws (s : State) : s.releaseReset.draws = s.draws := rfl

@[simp] theorem State.returns_f (s : State) (d : ReadData) : (s.returns d).f = s.f := rfl
@[simp] theorem State.returns_status (s : State) (d : ReadData) : (s.returns d).status = s.status := rfl
@[simp] theorem State.returns_fcmd (s : State) (d : ReadData) : (s.returns d).fcmd = s.fcmd := rfl
@[simp] theorem State.returns_buf (s : State) (d : ReadData) : (s.returns d).buf = s.buf := rfl
@[simp] theorem State.returns_resetHeld (s : State) (d : ReadData) : (s.returns d).resetHeld = s.resetHeld := rfl
@[simp] theorem State.returns_host (s : State) (d : ReadData) : (s.returns d).host = s.host := rfl
@[simp] theorem State.returns_readData (s : State) (d : ReadData) : (s.returns d).readData = some d := rfl
@[simp] theorem State.returns_draws (s : State) (d : ReadData) : (s.returns d).draws = s.draws := rfl

@[simp] theorem State.reg_host (s : State) (es : List HostEvent) (i : Reg) :
    State.reg { s with host := es } i = s.reg i := rfl

@[simp] theorem State.reg_writeBuf (s : State) (a : Nat) (b : Byte) (j : Reg) : (s.writeBuf a b).reg j = s.reg j := rfl
@[simp] theorem State.reg_writeBufBytes (s : State) (a : Nat) (bs : List Byte) (j : Reg) : (s.writeBufBytes a bs).reg j = s.reg j := rfl
@[simp] theorem State.reg_raise (s : State) (r : Raised) (w : CmdWord) (j : Reg) : (s.raise r w).reg j = s.reg j := rfl
@[simp] theorem State.reg_setRes (s : State) (b : Bool) (j : Reg) : (s.setRes b).reg j = s.reg j := rfl
@[simp] theorem State.reg_setSign (s : State) (b : Bool) (j : Reg) : (s.setSign b).reg j = s.reg j := rfl
@[simp] theorem State.reg_setNoroot (s : State) (b : Bool) (j : Reg) : (s.setNoroot b).reg j = s.reg j := rfl
@[simp] theorem State.reg_releaseReset (s : State) (j : Reg) : s.releaseReset.reg j = s.reg j := rfl
@[simp] theorem State.reg_returns (s : State) (d : ReadData) (j : Reg) : (s.returns d).reg j = s.reg j := rfl

@[simp] theorem State.reg_writeReg_self (s : State) (i : Reg) (v : Fq) : (s.writeReg i v).reg i = some v := by
  simp [State.reg]

theorem State.reg_writeReg_ne (s : State) (i j : Reg) (v : Fq) (h : j ≠ i) : (s.writeReg i v).reg j = s.reg j := by
  have h' : i.val ≠ j.val := fun e => h (Fin.ext e.symm)
  simp [State.reg, Vector.getElem_set_ne, h']

@[simp] theorem State.reg_clearReg_self (s : State) (i : Reg) : (s.clearReg i).reg i = none := by
  simp [State.reg]

theorem State.reg_clearReg_ne (s : State) (i j : Reg) (h : j ≠ i) : (s.clearReg i).reg j = s.reg j := by
  have h' : i.val ≠ j.val := fun e => h (Fin.ext e.symm)
  simp [State.reg, Vector.getElem_set_ne, h']

@[simp] theorem State.reg_reset (i : Reg) : State.reset.reg i = none := by
  simp [State.reg, State.reset]

@[simp] theorem State.reg_assertReset (s : State) (i : Reg) : s.assertReset.reg i = none := State.reg_reset i

end Sys2Proof.Machine
end

