-- ==== Sys2Proof/Laws/Ops.lean ====
section
/-!
SUPPORT. What each shared operation answers: operand reads, fault entry, the square root, a command step, an event.
-/

namespace Sys2Proof.Machine

@[simp] theorem raises_eq (r : Raised) (w : CmdWord) (s : State) : raises r w s = .next (s.raise r w) := rfl

theorem withSource_some (w : CmdWord) (ra : Reg) (s : State) (k : Fq → Answer) (a : Fq) (h : s.reg ra = some a) :
    withSource w ra s k = k a := by
  simp only [withSource, h]

theorem withSource_none (w : CmdWord) (ra : Reg) (s : State) (k : Fq → Answer) (h : s.reg ra = none) :
    withSource w ra s k = .next (s.raise (.uninitReg ra) w) := by
  simp only [withSource, h, raises_eq]

/-- A source read either hands its value on or is fault entry. -/
theorem withSource_next (w : CmdWord) (ra : Reg) (s t : State) (k : Fq → Answer) (h : withSource w ra s k = .next t) :
    (∃ a, s.reg ra = some a ∧ k a = .next t) ∨ (s.reg ra = none ∧ t = s.raise (.uninitReg ra) w) := by
  cases hr : s.reg ra with
  | some a => rw [withSource_some w ra s k a hr] at h; exact .inl ⟨a, rfl, h⟩
  | none => rw [withSource_none w ra s k hr] at h; cases h; exact .inr ⟨rfl, rfl⟩

theorem withSources_some (w : CmdWord) (ra rb : Reg) (s : State) (k : Fq → Fq → Answer) (a b : Fq) (ha : s.reg ra = some a)
    (hb : s.reg rb = some b) : withSources w ra rb s k = k a b := by
  rw [withSources, withSource_some _ _ _ _ a ha, withSource_some _ _ _ _ b hb]

/-- Two source reads hand both values on, or are fault entry for the first unwritten one, ra before rb. -/
theorem withSources_next (w : CmdWord) (ra rb : Reg) (s t : State) (k : Fq → Fq → Answer)
    (h : withSources w ra rb s k = .next t) :
    (∃ a b, s.reg ra = some a ∧ s.reg rb = some b ∧ k a b = .next t) ∨
    (s.reg ra = none ∧ t = s.raise (.uninitReg ra) w) ∨
    (s.reg ra ≠ none ∧ s.reg rb = none ∧ t = s.raise (.uninitReg rb) w) := by
  rcases withSource_next _ _ _ _ _ h with ⟨a, ha, h⟩ | ⟨ha, h⟩
  · rcases withSource_next _ _ _ _ _ h with ⟨b, hb, h⟩ | ⟨hb, h⟩
    · exact .inl ⟨a, b, ha, hb, h⟩
    · exact .inr (.inr ⟨by simp [ha], hb, h⟩)
  · exact .inr (.inl ⟨ha, h⟩)

theorem withBuffer_some (w : CmdWord) (s : State) (k : List Byte → Answer) (B : Nat → Byte)
    (h : ∀ i, i < 32 → s.buf.read i = some (B i)) : withBuffer w s k = k ((List.range 32).map B) := by
  have := Memory.readBytes_eq_some s.buf 0 32 B (by simpa using h)
  simp only [withBuffer, this]

theorem withBuffer_none (w : CmdWord) (s : State) (k : List Byte → Answer) (i : Nat) (hi : i < 32)
    (h : s.buf.read i = none) : withBuffer w s k = .next (s.raise .uninitBuf w) := by
  have := (Memory.readBytes_eq_none_iff s.buf 0 32).2 ⟨i, hi, by simpa using h⟩
  simp only [withBuffer, this, raises_eq]

/-- BUF is all written, or some byte is not. -/
theorem buffer_written_or (m : Memory) :
    (∃ B : Nat → Byte, ∀ i, i < 32 → m.read i = some (B i)) ∨ ∃ i, i < 32 ∧ m.read i = none := by
  by_cases h : ∃ i, i < 32 ∧ m.read i = none
  · exact .inr h
  · refine .inl ⟨fun i => (m.read i).getD 0, fun i hi => ?_⟩
    cases hr : m.read i with
    | none => exact absurd ⟨i, hi, hr⟩ h
    | some b => simp [hr]

/-- A DEC's read of BUF hands its 32 bytes on or is fault entry. -/
theorem withBuffer_next (w : CmdWord) (s t : State) (k : List Byte → Answer) (h : withBuffer w s k = .next t) :
    (∃ B : Nat → Byte, (∀ i, i < 32 → s.buf.read i = some (B i)) ∧ k ((List.range 32).map B) = .next t) ∨
    ((∃ i, i < 32 ∧ s.buf.read i = none) ∧ t = s.raise .uninitBuf w) := by
  rcases buffer_written_or s.buf with ⟨B, hB⟩ | ⟨i, hi, hn⟩
  · rw [withBuffer_some w s k B hB] at h; exact .inl ⟨B, hB, h⟩
  · rw [withBuffer_none w s k i hi hn] at h; cases h; exact .inr ⟨⟨i, hi, hn⟩, rfl⟩

/-- The assigned constants are the indices 0 to 6. -/
theorem constant_isSome (k : ConstIndex) : (constant k).isSome = decide (k.val ≤ 6) := by
  fin_cases k <;> rfl

/-- A constant operand is handed on where it is assigned, and is fault entry where it is not. -/
theorem withConstant_next (w : CmdWord) (k : ConstIndex) (s t : State) (go : Fq → Answer) (h : withConstant w k s go = .next t) :
    (∃ c, constant k = some c ∧ go c = .next t) ∨ (constant k = none ∧ t = s.raise .illegalCmd w) := by
  unfold withConstant at h
  split at h
  · next c hc => exact .inl ⟨c, hc, h⟩
  · next hc => cases h; exact .inr ⟨hc, rfl⟩

theorem rootCandidate_val (a : Fq) : (rootCandidate a).val = a.val * a.val ^ sqrtExponent % q := by
  rw [rootCandidate, mulq_val, powq_val _ _ sqrtExponent_lt, Nat.mul_mod_mod]

/-- q ⊖ a (R144). -/
theorem negq_val (a : Fq) : (modq ((q : Int) - toInt a)).val = (q - a.val) % q := by
  have h : ((q : Int) - toInt a) = ((q - a.val : Nat) : Int) := by
    rw [toInt, Nat.cast_sub a.isLt.le]
  rw [h, modq_val_nat]

/-- The two ways to a root, and the way to none (R144). -/
theorem squareRoot_cases (a : Fq) :
    let beta := rootCandidate a
    (beta.val * beta.val % q = a.val ∧ squareRoot a = some beta) ∨
    (beta.val * beta.val % q ≠ a.val ∧ beta.val * beta.val % q = (q - a.val) % q ∧ squareRoot a = some (mulq beta sqrtm1)) ∨
    (beta.val * beta.val % q ≠ a.val ∧ beta.val * beta.val % q ≠ (q - a.val) % q ∧ squareRoot a = none) := by
  intro beta
  have e1 : mulq beta beta = a ↔ beta.val * beta.val % q = a.val := by rw [← mulq_val, Fin.ext_iff]
  have e2 : mulq beta beta = modq ((q : Int) - toInt a) ↔ beta.val * beta.val % q = (q - a.val) % q := by
    rw [← mulq_val, ← negq_val, Fin.ext_iff]
  have hs : squareRoot a = if mulq beta beta = a then some beta
      else if mulq beta beta = modq ((q : Int) - toInt a) then some (mulq beta sqrtm1) else none := rfl
  rw [hs]
  by_cases h1 : mulq beta beta = a
  · exact .inl ⟨e1.1 h1, if_pos h1⟩
  · rw [if_neg h1]
    by_cases h2 : mulq beta beta = modq ((q : Int) - toInt a)
    · exact .inr (.inl ⟨fun h => h1 (e1.2 h), e2.1 h2, if_pos h2⟩)
    · exact .inr (.inr ⟨fun h => h1 (e1.2 h), fun h => h2 (e2.2 h), if_neg h2⟩)

theorem command_faulted (w : CmdWord) (s : State) (h : s.status.fault = true) : command w s = .next s := by
  simp [command, h]

theorem command_illegal (w : CmdWord) (s : State) (e : DecodeError) (h : s.status.fault = false) (he : decode w = .error e) :
    command w s = .next (s.raise .illegalCmd w) := by
  simp [command, h, he]

theorem command_ok (w : CmdWord) (s : State) (i : Instr) (h : s.status.fault = false) (hi : decode w = .ok i) :
    command w s = exec i s := by
  simp [command, h, hi]

theorem step_idle (s : State) (h : s.host = []) : nextEvent s = .next s := by
  simp [nextEvent, h]

theorem nextEvent_cons (s : State) (e : HostEvent) (rest : List HostEvent) (h : s.host = e :: rest) :
    nextEvent s = hostEvent e { s with host := rest } := by
  simp [nextEvent, h]

/-- What a step that answers a next state can have been: idle, a reset level, a read, an ignored write, a BUF byte write, or a
command step. -/
theorem hostEvent_next (e : HostEvent) (s t : State) (h : hostEvent e s = .next t) :
    (e = .resetLine true ∧ t = s.assertReset) ∨ (e = .resetLine false ∧ t = s.releaseReset) ∨
    (s.resetHeld = false ∧
      ((∃ off, (e = .read8 off ∨ e = .read32 off) ∧
          ((∃ d, t = s.returns d) ∨ ∃ b, t = { s.returns (.byte b) with draws := s.draws + 1 })) ∨
       (t = s ∧ ∃ off, (∃ w, off ≠ 0 ∧ e = .write32 off w) ∨ ∃ b, e = .write8 off b) ∨
       (∃ (off : Fin 64) (i : Fin 32) (b : Byte), e = .write8 off b ∧ off.val = 32 + i.val ∧ t = s.writeBuf i.val b) ∨
       (∃ w, e = .write32 0 w ∧ command w s = .next t))) := by
  have held : ∀ go, whenReleased s go = .next t → s.resetHeld = false ∧ go s = .next t := by
    intro go hg
    unfold whenReleased at hg
    split at hg
    · cases hg
    · next hr => exact ⟨by simpa using hr, hg⟩
  cases e with
  | resetLine b => cases b <;> simp [hostEvent] at h <;> simp [h]
  | read16 off => simp [hostEvent] at h; exact absurd (held _ h).2 (by simp)
  | write16 off x => simp [hostEvent] at h; exact absurd (held _ h).2 (by simp)
  | read8 off =>
    obtain ⟨hr, h⟩ := held _ h
    refine .inr (.inr ⟨hr, .inl ⟨off, .inl rfl, ?_⟩⟩)
    unfold hostRead8 at h
    split at h <;> cases h
    · unfold readBuf
      split
      · exact .inl ⟨_, rfl⟩
      · exact .inr ⟨_, rfl⟩
    · exact .inl ⟨_, rfl⟩
  | read32 off =>
    obtain ⟨hr, h⟩ := held _ h
    refine .inr (.inr ⟨hr, .inl ⟨off, .inr rfl, ?_⟩⟩)
    unfold hostRead32 at h
    split at h <;> cases h
    all_goals exact .inl ⟨_, rfl⟩
  | write8 off b =>
    obtain ⟨hr, h⟩ := held _ h
    refine .inr (.inr ⟨hr, ?_⟩)
    unfold hostWrite8 at h
    split at h <;> cases h
    · next i hi =>
      refine .inr (.inr (.inl ⟨off, i, b, rfl, ?_, rfl⟩))
      unfold bytePlace at hi
      split at hi
      · next h20 => cases hi; simp; omega
      · split at hi <;> cases hi
    · exact .inr (.inl ⟨rfl, off, .inr ⟨b, rfl⟩⟩)
  | write32 off w =>
    obtain ⟨hr, h⟩ := held _ h
    refine .inr (.inr ⟨hr, ?_⟩)
    unfold hostWrite32 at h
    by_cases h0 : off = 0
    · subst h0
      exact .inr (.inr (.inr ⟨w, rfl, h⟩))
    · have hp : wordPlace off ≠ some .cmd := by
        intro hp
        unfold wordPlace at hp
        split at hp
        · next hz => exact h0 (Fin.ext hz)
        · split at hp
          · cases hp
          · split at hp
            · cases hp
            · split at hp <;> cases hp
      split at h <;> first | cases h | skip
      · next hc => exact absurd hc hp
      all_goals exact .inr (.inl ⟨rfl, off, .inl ⟨w, h0, rfl⟩⟩)

end Sys2Proof.Machine
end

