-- ==== Sys2Proof/Laws/Exec.lean ====
section
/-!
SUPPORT. All that a command that answers a next state can have done.
-/

namespace Sys2Proof.Machine

/-- The causes a command can raise: an unwritten register among its sources, an unwritten byte for DEC, an unassigned constant
for LDK. -/
def CanRaise (i : Instr) (s : State) : Raised → Prop
  | .illegalCmd => i.op = .ldk ∧ i.wellFormed = false
  | .uninitReg r => r ∈ i.sources ∧ s.reg r = none
  | .uninitBuf => i.op = .dec ∧ ∃ a, a < 32 ∧ s.buf.read a = none

/-- A command's next state is fault entry, or one of the few updates that commands make. -/
theorem exec_next (i : Instr) (s t : State) (h : exec i s = .next t) :
    (∃ r, CanRaise i s r ∧ t = s.raise r (encode i)) ∨
    (i.op ∈ [Op.add, .sub, .mul, .sqr, .neg, .mov, .ldk, .inv, .powq58] ∧ ∃ rd v, i.dest = some rd ∧ t = s.writeReg rd v) ∨
    (∃ rd ra, i = .sqrt rd ra ∧
      ((∃ v, t = (s.writeReg rd v).setNoroot false) ∨ t = (s.clearReg rd).setNoroot true)) ∨
    (∃ rd b v, i = .dec rd ∧ t = (s.setSign b).writeReg rd v) ∨
    (∃ ra bs, i = .enc ra ∧ bs.length = 32 ∧ t = s.writeBufBytes 0 bs) ∨
    ((∃ ra rb, i = .eq ra rb) ∨ (∃ ra, i = .isneg ra)) ∧ ∃ b, t = s.setRes b := by
  have src1 : ∀ (w : CmdWord) ra (k : Fq → Answer), w = encode i → ra ∈ i.sources → withSource w ra s k = .next t →
      (∃ r, CanRaise i s r ∧ t = s.raise r (encode i)) ∨ ∃ a, k a = .next t := by
    rintro w ra k rfl hm h
    rcases withSource_next _ _ _ _ _ h with ⟨a, _, h⟩ | ⟨hn, h⟩
    · exact .inr ⟨a, h⟩
    · exact .inl ⟨.uninitReg ra, ⟨hm, hn⟩, h⟩
  have src2 : ∀ (w : CmdWord) ra rb (k : Fq → Fq → Answer), w = encode i → ra ∈ i.sources → rb ∈ i.sources →
      withSources w ra rb s k = .next t →
      (∃ r, CanRaise i s r ∧ t = s.raise r (encode i)) ∨ ∃ a b, k a b = .next t := by
    rintro w ra rb k rfl hm hm' h
    rcases withSources_next _ _ _ _ _ _ h with ⟨a, b, _, _, h⟩ | ⟨hn, h⟩ | ⟨_, hn, h⟩
    · exact .inr ⟨a, b, h⟩
    · exact .inl ⟨.uninitReg ra, ⟨hm, hn⟩, h⟩
    · exact .inl ⟨.uninitReg rb, ⟨hm', hn⟩, h⟩
  have next_inj : ∀ u : State, (Host.Outcome.next u : Answer) = .next t → t = u := by
    intro u h; cases h; rfl
  cases i with
  | add rd ra rb =>
    refine (src2 _ ra rb _ rfl (by simp [Instr.sources]) (by simp [Instr.sources]) h).imp_right fun ⟨a, b, h⟩ => .inl ⟨by simp [Instr.op], rd, _, rfl, next_inj _ h⟩
  | sub rd ra rb =>
    refine (src2 _ ra rb _ rfl (by simp [Instr.sources]) (by simp [Instr.sources]) h).imp_right fun ⟨a, b, h⟩ => .inl ⟨by simp [Instr.op], rd, _, rfl, next_inj _ h⟩
  | mul rd ra rb =>
    refine (src2 _ ra rb _ rfl (by simp [Instr.sources]) (by simp [Instr.sources]) h).imp_right fun ⟨a, b, h⟩ => .inl ⟨by simp [Instr.op], rd, _, rfl, next_inj _ h⟩
  | sqr rd ra => refine (src1 _ ra _ rfl (by simp [Instr.sources]) h).imp_right fun ⟨a, h⟩ => .inl ⟨by simp [Instr.op], rd, _, rfl, next_inj _ h⟩
  | neg rd ra => refine (src1 _ ra _ rfl (by simp [Instr.sources]) h).imp_right fun ⟨a, h⟩ => .inl ⟨by simp [Instr.op], rd, _, rfl, next_inj _ h⟩
  | mov rd ra => refine (src1 _ ra _ rfl (by simp [Instr.sources]) h).imp_right fun ⟨a, h⟩ => .inl ⟨by simp [Instr.op], rd, _, rfl, next_inj _ h⟩
  | ldk rd k =>
    rcases withConstant_next _ _ _ _ _ h with ⟨c, _, h⟩ | ⟨hn, h⟩
    · exact .inr (.inl ⟨by simp [Instr.op], rd, c, rfl, next_inj _ h⟩)
    · have hk := constant_isSome k
      rw [hn] at hk
      exact .inl ⟨.illegalCmd, ⟨rfl, hk.symm⟩, h⟩
  | inv rd ra => refine (src1 _ ra _ rfl (by simp [Instr.sources]) h).imp_right fun ⟨a, h⟩ => .inl ⟨by simp [Instr.op], rd, _, rfl, next_inj _ h⟩
  | powq58 rd ra => refine (src1 _ ra _ rfl (by simp [Instr.sources]) h).imp_right fun ⟨a, h⟩ => .inl ⟨by simp [Instr.op], rd, _, rfl, next_inj _ h⟩
  | sqrt rd ra =>
    refine (src1 _ ra _ rfl (by simp [Instr.sources]) h).imp_right fun ⟨a, h⟩ => .inr (.inl ⟨rd, ra, rfl, ?_⟩)
    cases hr : squareRoot a with
    | some r => simp only [hr] at h; exact .inl ⟨r, next_inj _ h⟩
    | none => simp only [hr] at h; exact .inr (next_inj _ h)
  | dec rd =>
    rcases withBuffer_next _ _ _ _ h with ⟨B, _, h⟩ | ⟨hn, h⟩
    · exact .inr (.inr (.inr (.inl ⟨rd, _, _, rfl, next_inj _ h⟩)))
    · exact .inl ⟨.uninitBuf, ⟨rfl, hn⟩, h⟩
  | enc ra =>
    refine (src1 _ ra _ rfl (by simp [Instr.sources]) h).imp_right fun ⟨a, h⟩ => .inr (.inr (.inr (.inl ⟨ra, leBytes 32 a.val, rfl, leBytes_length 32 _, next_inj _ h⟩)))
  | eq ra rb =>
    refine (src2 _ ra rb _ rfl (by simp [Instr.sources]) (by simp [Instr.sources]) h).imp_right fun ⟨a, b, h⟩ => .inr (.inr (.inr (.inr ⟨.inl ⟨ra, rb, rfl⟩, _, next_inj _ h⟩)))
  | isneg ra =>
    refine (src1 _ ra _ rfl (by simp [Instr.sources]) h).imp_right fun ⟨a, h⟩ => .inr (.inr (.inr (.inr ⟨.inr ⟨ra, rfl⟩, _, next_inj _ h⟩)))

/-- ENC's bytes, read back: byte i of the value. -/
theorem State.read_encoded (s : State) (v i : Nat) (h : i < 32) :
    (s.writeBufBytes 0 (leBytes 32 v)).buf.read i = some (BitVec.ofNat 8 (v / 256 ^ i)) := by
  have := Memory.read_writeBytes (leBytes 32 v) s.buf 0 i (by simpa using h)
  rw [Nat.zero_add] at this
  rw [State.writeBufBytes_buf, this, leBytes_getElem? _ _ _ h]

/-- A 32-byte write leaves every offset past BUF alone. -/
theorem State.read_writeBufBytes_ge (s : State) (bs : List Byte) (i : Nat) (hb : bs.length = 32) (h : 32 ≤ i) :
    (s.writeBufBytes 0 bs).buf.read i = s.buf.read i := by
  rw [State.writeBufBytes_buf]
  exact Memory.read_writeBytes_ge bs s.buf 0 i (by omega)

end Sys2Proof.Machine
end

