-- ==== Sys2Proof/Laws/PerInstr.lean ====
section
/-!
SUPPORT. For every command, as syntax: its word lies in its own row of the opcode map (R74) with the reserved field 0 (R70).
-/

namespace Sys2Proof.Laws.OpcodeRow

/-- The word of i has i's opcode, a zero reserved field and zero unused fields, so it is in i's row. -/
def Statement (i : Instr) : Prop :=
  opField (encode i) = i.op.code ∧ zeroField (encode i) = 0 ∧ i.op.form.unusedZero (encode i) = true

theorem add (rd ra rb : Reg) : Statement (.add rd ra rb) := by simp [Statement, encode, Instr.op, Op.code, Op.form, Form.unusedZero]

theorem sub (rd ra rb : Reg) : Statement (.sub rd ra rb) := by simp [Statement, encode, Instr.op, Op.code, Op.form, Form.unusedZero]

theorem mul (rd ra rb : Reg) : Statement (.mul rd ra rb) := by simp [Statement, encode, Instr.op, Op.code, Op.form, Form.unusedZero]

theorem sqr (rd ra : Reg) : Statement (.sqr rd ra) := by simp [Statement, encode, Instr.op, Op.code, Op.form, Form.unusedZero]

theorem neg (rd ra : Reg) : Statement (.neg rd ra) := by simp [Statement, encode, Instr.op, Op.code, Op.form, Form.unusedZero]

theorem mov (rd ra : Reg) : Statement (.mov rd ra) := by simp [Statement, encode, Instr.op, Op.code, Op.form, Form.unusedZero]

theorem ldk (rd : Reg) (k : ConstIndex) : Statement (.ldk rd k) := by
  simp [Statement, encode, Instr.op, Op.code, Op.form, Form.unusedZero]

theorem inv (rd ra : Reg) : Statement (.inv rd ra) := by simp [Statement, encode, Instr.op, Op.code, Op.form, Form.unusedZero]

theorem powq58 (rd ra : Reg) : Statement (.powq58 rd ra) := by
  simp [Statement, encode, Instr.op, Op.code, Op.form, Form.unusedZero]

theorem sqrt (rd ra : Reg) : Statement (.sqrt rd ra) := by simp [Statement, encode, Instr.op, Op.code, Op.form, Form.unusedZero]

theorem dec (rd : Reg) : Statement (.dec rd) := by simp [Statement, encode, Instr.op, Op.code, Op.form, Form.unusedZero]

theorem enc (ra : Reg) : Statement (.enc ra) := by simp [Statement, encode, Instr.op, Op.code, Op.form, Form.unusedZero]

theorem eq (ra rb : Reg) : Statement (.eq ra rb) := by simp [Statement, encode, Instr.op, Op.code, Op.form, Form.unusedZero]

theorem isneg (ra : Reg) : Statement (.isneg ra) := by simp [Statement, encode, Instr.op, Op.code, Op.form, Form.unusedZero]

end Sys2Proof.Laws.OpcodeRow
end

