-- ==== Sys2Proof/Laws/Prime.lean ====
section
/-!
SUPPORT. q is prime (R2, R102), by Lucas's criterion down the factors of q - 1.
-/

namespace Sys2Proof.Machine

theorem natCast_pow_eq_one_iff (p a e : Nat) (hp : 1 < p) : ((a : ZMod p) ^ e = 1) ↔ a ^ e % p = 1 := by
  have h : ((a ^ e : Nat) : ZMod p) = ((1 : Nat) : ZMod p) ↔ a ^ e % p = 1 % p := ZMod.natCast_eq_natCast_iff' _ _ _
  rw [Nat.mod_eq_of_lt hp] at h
  simpa using h

/-- Lucas's criterion with the factors of p - 1 and a primitive root a. -/
theorem prime_of_factors (p a : Nat) (fs : List Nat) (hp : 1 < p) (hlt : p < 2 ^ 256) (hprod : fs.prod = p - 1)
    (hprime : ∀ f ∈ fs, f.Prime) (h1 : powMod p a 256 (p - 1) = 1) (hne : ∀ f ∈ fs, powMod p a 256 ((p - 1) / f) ≠ 1) :
    p.Prime := by
  refine lucas_primality p (a : ZMod p) ?_ fun r hr hd => ?_
  · rw [natCast_pow_eq_one_iff _ _ _ hp, ← powMod_eq p a 256 _ (by omega), h1]
  · rw [← hprod] at hd
    obtain ⟨f, hf, hrf⟩ := hr.prime.dvd_prod_iff.1 hd
    obtain rfl := (Nat.prime_dvd_prime_iff_eq hr (hprime f hf)).1 hrf
    rw [Ne, natCast_pow_eq_one_iff _ _ _ hp, ← powMod_eq p a 256 _ (lt_of_le_of_lt (Nat.div_le_self _ _) (by omega))]
    exact hne r hf

theorem prime_1923133 : Nat.Prime 1923133 := by
  refine prime_of_factors _ 2 [2, 2, 3, 43, 3727] (by decide) (by decide) (by decide +kernel) ?_ (by decide +kernel) (by decide +kernel)
  simp only [List.forall_mem_cons, List.not_mem_nil, false_imp_iff, implies_true, and_true]
  exact ⟨(by norm_num),
    (by norm_num),
    (by norm_num),
    (by norm_num),
    (by norm_num)⟩

theorem prime_31757755568855353 : Nat.Prime 31757755568855353 := by
  refine prime_of_factors _ 10 [2, 2, 2, 3, 31, 107, 223, 4153, 430751] (by decide) (by decide) (by decide +kernel) ?_ (by decide +kernel) (by decide +kernel)
  simp only [List.forall_mem_cons, List.not_mem_nil, false_imp_iff, implies_true, and_true]
  exact ⟨(by norm_num),
    (by norm_num),
    (by norm_num),
    (by norm_num),
    (by norm_num),
    (by norm_num),
    (by norm_num),
    (by norm_num),
    (by norm_num)⟩

theorem prime_2773320623 : Nat.Prime 2773320623 := by
  refine prime_of_factors _ 5 [2, 2437, 569003] (by decide) (by decide) (by decide +kernel) ?_ (by decide +kernel) (by decide +kernel)
  simp only [List.forall_mem_cons, List.not_mem_nil, false_imp_iff, implies_true, and_true]
  exact ⟨(by norm_num),
    (by norm_num),
    (by norm_num)⟩

theorem prime_72106336199 : Nat.Prime 72106336199 := by
  refine prime_of_factors _ 7 [2, 13, 2773320623] (by decide) (by decide) (by decide +kernel) ?_ (by decide +kernel) (by decide +kernel)
  simp only [List.forall_mem_cons, List.not_mem_nil, false_imp_iff, implies_true, and_true]
  exact ⟨(by norm_num),
    (by norm_num),
    prime_2773320623⟩

theorem prime_8574133 : Nat.Prime 8574133 := by
  refine prime_of_factors _ 2 [2, 2, 3, 7, 103, 991] (by decide) (by decide) (by decide +kernel) ?_ (by decide +kernel) (by decide +kernel)
  simp only [List.forall_mem_cons, List.not_mem_nil, false_imp_iff, implies_true, and_true]
  exact ⟨(by norm_num),
    (by norm_num),
    (by norm_num),
    (by norm_num),
    (by norm_num),
    (by norm_num)⟩

theorem prime_1919519569386763 : Nat.Prime 1919519569386763 := by
  refine prime_of_factors _ 2 [2, 3, 7, 19, 47, 47, 127, 8574133] (by decide) (by decide) (by decide +kernel) ?_ (by decide +kernel) (by decide +kernel)
  simp only [List.forall_mem_cons, List.not_mem_nil, false_imp_iff, implies_true, and_true]
  exact ⟨(by norm_num),
    (by norm_num),
    (by norm_num),
    (by norm_num),
    (by norm_num),
    (by norm_num),
    (by norm_num),
    prime_8574133⟩

theorem prime_75445702479781427272750846543864801 : Nat.Prime 75445702479781427272750846543864801 := by
  refine prime_of_factors _ 7 [2, 2, 2, 2, 2, 3, 3, 5, 5, 75707, 72106336199, 1919519569386763] (by decide) (by decide) (by decide +kernel) ?_ (by decide +kernel) (by decide +kernel)
  simp only [List.forall_mem_cons, List.not_mem_nil, false_imp_iff, implies_true, and_true]
  exact ⟨(by norm_num),
    (by norm_num),
    (by norm_num),
    (by norm_num),
    (by norm_num),
    (by norm_num),
    (by norm_num),
    (by norm_num),
    (by norm_num),
    (by norm_num),
    prime_72106336199,
    prime_1919519569386763⟩

theorem prime_74058212732561358302231226437062788676166966415465897661863160754340907 : Nat.Prime 74058212732561358302231226437062788676166966415465897661863160754340907 := by
  refine prime_of_factors _ 2 [2, 3, 353, 57467, 132049, 1923133, 31757755568855353, 75445702479781427272750846543864801] (by decide) (by decide) (by decide +kernel) ?_ (by decide +kernel) (by decide +kernel)
  simp only [List.forall_mem_cons, List.not_mem_nil, false_imp_iff, implies_true, and_true]
  exact ⟨(by norm_num),
    (by norm_num),
    (by norm_num),
    (by norm_num),
    (by norm_num),
    prime_1923133,
    prime_31757755568855353,
    prime_75445702479781427272750846543864801⟩

theorem prime_q : Nat.Prime q := by
  refine prime_of_factors _ 2 [2, 2, 3, 65147, 74058212732561358302231226437062788676166966415465897661863160754340907] (by decide) (by decide) (by decide +kernel) ?_ (by decide +kernel) (by decide +kernel)
  simp only [List.forall_mem_cons, List.not_mem_nil, false_imp_iff, implies_true, and_true]
  exact ⟨(by norm_num),
    (by norm_num),
    (by norm_num),
    (by norm_num),
    prime_74058212732561358302231226437062788676166966415465897661863160754340907⟩

end Sys2Proof.Machine
end

