-- ==== Sys2Proof/Laws/Safety.lean ====
section
/-!
SUPPORT. The statements' own terms: R70's shifted word, fault entry, the buffer's value.
-/

namespace Sys2Proof.Safety

open Sys2Proof.Machine

theorem faultEntry_raise (s : State) (r : Raised) (w : CmdWord) : FaultEntry s (s.raise r w) r.cause r.freg w := rfl

/-- The shifts and ORs of R70 are the packed fields. -/
theorem shiftWord_eq_packWord (op : BitVec 8) (rd ra rb : Fin 16) :
    shiftWord op rd ra rb = packWord op (fieldOf rd) (fieldOf ra) (fieldOf rb) := by
  have key : ∀ (a b k : Nat), b < 2 ^ k → a * 2 ^ k ||| b = a * 2 ^ k + b := by
    intro a b k h
    have := Nat.shiftLeft_add_eq_or_of_lt h a
    rw [Nat.shiftLeft_eq] at this
    exact this.symm
  have field : ∀ (r : Fin 16) (k : Nat), k ≤ 20 → r.val % 2 ^ 32 * 2 ^ k % 2 ^ 32 = r.val * 2 ^ k := by
    intro ⟨r, hr⟩ k hk
    have : 2 ^ k ≤ 2 ^ 20 := Nat.pow_le_pow_right (by decide) hk
    rw [Nat.mod_eq_of_lt (Nat.lt_trans hr (by decide)), Nat.mod_eq_of_lt]
    calc r * 2 ^ k ≤ 15 * 2 ^ 20 := Nat.mul_le_mul (by omega) this
      _ < 2 ^ 32 := by norm_num
  have h1 := op.isLt
  have h2 := rd.isLt
  have h3 := ra.isLt
  have h4 := rb.isLt
  have e0 : op.toNat % 2 ^ 32 = op.toNat := by omega
  have e1 : op.toNat * 2 ^ 24 % 2 ^ 32 = op.toNat * 2 ^ 24 := by omega
  have f : ∀ r : Fin 16, (fieldOf r).toNat = r.val := fun _ => rfl
  apply BitVec.eq_of_toNat_eq
  rw [packWord_toNat, f, f, f]
  simp only [shiftWord, BitVec.toNat_or, BitVec.toNat_shiftLeft, BitVec.toNat_ofNat, BitVec.toNat_setWidth, Nat.shiftLeft_eq]
  rw [e0, e1, field rd 20 (by decide), field ra 16 (by decide), field rb 12 (by decide), key _ _ 24 (by omega),
    show op.toNat * 2 ^ 24 + rd.val * 2 ^ 20 = (op.toNat * 16 + rd.val) * 2 ^ 20 by omega, key _ _ 20 (by omega),
    show (op.toNat * 16 + rd.val) * 2 ^ 20 + ra.val * 2 ^ 16 = ((op.toNat * 16 + rd.val) * 16 + ra.val) * 2 ^ 16 by omega,
    key _ _ 16 (by omega)]

/-- What DEC reads is the buffer's value (R53). -/
theorem leValue_buffer (B : Nat → Byte) : leValue ((List.range 32).map B) = bufferValue B := leValue_map_range B 32

end Sys2Proof.Safety
end

