-- ==== Sys2Proof/Tests/Slice0.lean ====
section
/-!
SUPPORT. The model's own tests: the well-formedness smoke test, words written out from the encoding tables, one-step vectors of
95_test_vectors.md, and a witness for the hypotheses of each statement.
-/

namespace Sys2Proof.Tests

open Sys2Proof.Machine Sys2Proof.Safety

/-- The next state an answer holds, if it is one. -/
def nextOf : Answer → Option State
  | .next t => some t
  | .fault _ => none
  | .refused _ => none

/-- An answer that holds a next state is that next state. -/
theorem next_of (a : Answer) (t : State) (h : nextOf a = some t) : a = .next t := by
  cases a with
  | next u => cases h; rfl
  | fault _ => cases h
  | refused _ => cases h

/-- State.reset with these registers written. -/
def withRegs (l : List (Reg × Int)) : State := l.foldl (fun s p => s.writeReg p.1 (modq p.2)) State.reset

/-- State.reset with these bytes at the start of BUF. -/
def withBytes (bs : List Byte) : State := State.reset.writeBufBytes 0 bs

/-- The value of a register after a command, none where it is unwritten. -/
def regAfter (i : Instr) (s : State) (r : Reg) : Option Nat := ((nextOf (exec i s)).bind fun t => t.reg r).map (·.val)

/-- STATUS, as the host reads it, after a command step. -/
def statusAfter (w : CmdWord) (s : State) : Option (BitVec 32) := (nextOf (command w s)).map (·.status.word)

/-- FCMD after a command step. -/
def fcmdAfter (w : CmdWord) (s : State) : Option (BitVec 32) := (nextOf (command w s)).map (·.fcmd)

/-- f2 and f3 written, with the boundary values q - 1 and 0. -/
def both : State := withRegs [(2, -1), (3, 0)]

/-- f2 written with 2, which has no root. -/
def one : State := withRegs [(2, 2)]

/-- A faulted state: f1 was read unwritten by mov f0, f1, after which BUF[0] was written. -/
def faulted : State := (State.reset.raise (.uninitReg 1) 0x06010000).writeBuf 0 0x5A

/-! ## Well-formedness and decoding -/

/-- R73: k is 0 to 6. The one check of WellFormed refuses k = 7 and takes k = 6. -/
theorem test_wellFormed_ldk : Instr.wellFormed (.ldk 0 7) = false ∧ Instr.wellFormed (.ldk 0 6) = true := by decide

/-- The words of R77's examples and of 95_test_vectors.md, one for each constructor. -/
theorem test_decode_arith :
    decodeTableWord 32 0x01123000 = some (.add 1 2 3) ∧ decodeTableWord 32 0x02123000 = some (.sub 1 2 3) ∧
    decodeTableWord 32 0x03123000 = some (.mul 1 2 3) ∧ decodeTableWord 32 0x04450000 = some (.sqr 4 5) ∧
    decodeTableWord 32 0x05450000 = some (.neg 4 5) ∧ decodeTableWord 32 0x06450000 = some (.mov 4 5) ∧
    decodeTableWord 32 0x07A60000 = some (.ldk 10 6) := by decide

theorem test_decode_exponent :
    decodeTableWord 32 0x08320000 = some (.inv 3 2) ∧ decodeTableWord 32 0x09770000 = some (.powq58 7 7) ∧
    decodeTableWord 32 0x0A540000 = some (.sqrt 5 4) := by decide

theorem test_decode_codec :
    decodeTableWord 32 0x10700000 = some (.dec 7) ∧ decodeTableWord 32 0x11070000 = some (.enc 7) := by decide

theorem test_decode_predicate :
    decodeTableWord 32 0x18012000 = some (.eq 1 2) ∧ decodeTableWord 32 0x19030000 = some (.isneg 3) := by decide

/-- Bit by bit from R70 and R74: op 0x0A, rd = 1111, ra = 0001, rb = 0, zero field. -/
theorem test_decode_bits : decode 0b00001010111100010000000000000000 = .ok (.sqrt 15 1) := by rfl

/-- R75's four conditions, each by a word of V-F-1 to V-F-10. -/
theorem test_decode_refuses :
    decode 0x00000000 = .error .unknownOpcode ∧ decode 0x0B000000 = .error .unknownOpcode ∧
    decode 0x01000001 = .error .reservedBits ∧ decode 0x04001000 = .error .unusedField ∧
    decode 0x18100000 = .error .unusedField ∧ decode 0x10010000 = .error .unusedField ∧
    decode 0x11100000 = .error .unusedField ∧ decode 0x19001000 = .error .unusedField ∧
    decode 0x07070000 = .error .constIndex := by
  refine ⟨rfl, rfl, rfl, rfl, rfl, rfl, rfl, rfl, rfl⟩

/-- R77: `add f1, f2, f3`, `ldk f0, ONE`, `ldk f0, 1`, `eq f1, f2`, and a register that does not exist. -/
theorem test_assemble :
    assemble "add" ["f1", "f2", "f3"] = some (.add 1 2 3) ∧ assemble "ldk" ["f0", "ONE"] = some (.ldk 0 1) ∧
    assemble "ldk" ["f0", "1"] = some (.ldk 0 1) ∧ assemble "eq" ["f1", "f2"] = some (.eq 1 2) ∧
    assemble "mov" ["f1", "f16"] = none := by decide

/-- A command placed as the next event runs in the next step (R38): V-LDK-1. -/
theorem test_withFetchWord :
    (nextOf (step (State.reset.withFetchWord 32 0x07110000))).map (fun t => (t.reg 1, t.host)) = some (some (modq 1), []) := by
  decide

/-! ## One-step vectors, by 95_test_vectors.md's ids -/

/-- V-ADD-3. -/
theorem test_add_reduces : regAfter (.add 1 2 3) (withRegs [(2, 2 ^ 254), (3, 2 ^ 254)]) 1 = some 19 := by decide

/-- V-ADD-4. -/
theorem test_add_aliased : regAfter (.add 1 1 1) (withRegs [(1, 3)]) 1 = some 6 := by decide

/-- V-SUB-1. -/
theorem test_sub_wraps : regAfter (.sub 1 2 3) (withRegs [(2, 0), (3, 1)]) 1 = some (q - 1) := by decide

/-- V-SUB-2. -/
theorem test_sub_order : regAfter (.sub 1 2 3) (withRegs [(2, 1), (3, (q : Int) - 1)]) 1 = some 2 := by decide

/-- V-MUL-2. -/
theorem test_mul_reduces : regAfter (.mul 1 2 3) (withRegs [(2, 2 ^ 128), (3, 2 ^ 128)]) 1 = some 38 := by decide

/-- V-MUL-1. -/
theorem test_mul_top : regAfter (.mul 1 2 3) (withRegs [(2, (q : Int) - 1), (3, (q : Int) - 1)]) 1 = some 1 := by decide

/-- V-SQR-3. -/
theorem test_sqr_reduces : regAfter (.sqr 4 5) (withRegs [(5, 2 ^ 128)]) 4 = some 38 := by decide

/-- V-NEG-1 and V-NEG-2. -/
theorem test_neg : regAfter (.neg 4 5) (withRegs [(5, 0)]) 4 = some 0 ∧ regAfter (.neg 4 5) (withRegs [(5, 1)]) 4 = some (q - 1) := by
  decide

/-- V-MOV-1. -/
theorem test_mov : regAfter (.mov 4 5) (withRegs [(5, 7)]) 4 = some 7 ∧ regAfter (.mov 4 5) (withRegs [(5, 7)]) 5 = some 7 := by
  decide

/-- V-LDK-3, V-LDK-4 and V-LDK-5. -/
theorem test_ldk : regAfter (.ldk 1 3) State.reset 1 = some 4 ∧ regAfter (.ldk 1 4) State.reset 1 = some 5 ∧
    regAfter (.ldk 1 5) State.reset 1 = some 8 := by decide

/-- V-INV-1. -/
theorem test_inv_zero : regAfter (.inv 4 5) (withRegs [(5, 0)]) 4 = some 0 := by decide +kernel

/-- V-INV-5. -/
theorem test_inv_three : regAfter (.inv 4 5) (withRegs [(5, 3)]) 4 =
    some 38597363079105398474523661669562635951089994888546854679819194669304376546633 := by decide +kernel

/-- V-P58-3. -/
theorem test_powq58_two : regAfter (.powq58 4 5) (withRegs [(5, 2)]) 4 =
    some 38788602997682801834296285904666247971040529424372086091236406538540197302351 := by decide +kernel

/-- V-SQRT-3, the SQRTM1 path, and V-SQRT-4, the direct path. -/
theorem test_sqrt_root : regAfter (.sqrt 4 5) (withRegs [(5, 4)]) 4 = some (q - 2) ∧
    regAfter (.sqrt 4 5) (withRegs [(5, 9)]) 4 = some 3 := by decide +kernel

/-- V-SQRT-9: no root leaves rd unwritten and sets NOROOT. -/
theorem test_sqrt_none : (nextOf (exec (.sqrt 4 5) (withRegs [(4, 1), (5, 2)]))).map (fun t => (t.reg 4, t.status.word)) =
    some (none, 0x00000004) := by decide +kernel

/-- V-DEC-5: 2^256 - 1 reads as 18 with SIGN = 1. -/
theorem test_dec_sign : (nextOf (exec (.dec 7) (withBytes (List.replicate 32 0xFF)))).map (fun t => (t.reg 7, t.status.word)) =
    some (some (modq 18), 0x00000002) := by decide

/-- V-DEC-8: q - 1 is canonical. -/
theorem test_dec_top : (nextOf (exec (.dec 7) (withBytes (0xEC :: List.replicate 30 0xFF ++ [0x7F])))).map
    (fun t => (t.reg 7, t.status.word)) = some (some (modq ((q : Int) - 1)), 0) := by decide

/-- V-DEC-9: h = 2^254 - 9, which is (q + 1)/2, encodes as f7 ff .. ff 3f. -/
theorem test_enc_bytes : (nextOf (exec (.enc 7) (withRegs [(7, 2 ^ 254 - 9)]))).map
    (fun t => (List.range 32).map t.buf.read) = some ((0xF7 :: List.replicate 30 0xFF ++ [0x3F]).map some) := by decide

/-- V-EQ-3 and V-EQ-5. -/
theorem test_eq : statusAfter 0x18011000 (withRegs [(1, (q : Int) - 1)]) = some 1 ∧
    statusAfter 0x18012000 (withRegs [(1, 1), (2, (q : Int) - 1)]) = some 0 := by decide

/-- V-NEG-P-2 and V-NEG-P-3. -/
theorem test_isneg : statusAfter 0x19030000 (withRegs [(3, 1)]) = some 1 ∧
    statusAfter 0x19030000 (withRegs [(3, (q : Int) - 1)]) = some 0 := by decide

/-- V-F-6, V-F-11 to V-F-15, and V-F-17's last command: STATUS after each. -/
theorem test_fault_status :
    statusAfter 0x07070000 State.reset = some 0x00000018 ∧ statusAfter 0x01123000 State.reset = some 0x00000228 ∧
    statusAfter 0x01123000 (withRegs [(2, 1)]) = some 0x00000328 ∧ statusAfter 0x10000000 State.reset = some 0x00000038 ∧
    statusAfter 0x10000000 (withBytes (List.replicate 31 0)) = some 0x00000038 ∧
    statusAfter 0x11040000 State.reset = some 0x00000428 ∧
    statusAfter 0x06650000 (State.reset.setNoroot true) = some 0x0000052C := by decide

/-- FCMD after V-F-1, V-F-11 and V-F-13; V-F-16's last command is ignored and FCMD keeps the first word. -/
theorem test_fault_fcmd :
    fcmdAfter 0x00000000 State.reset = some 0 ∧ fcmdAfter 0x01123000 State.reset = some 0x01123000 ∧
    fcmdAfter 0x10000000 State.reset = some 0x10000000 ∧ fcmdAfter 0x07220000 faulted = some 0x06010000 := by decide

/-! ## Witnesses: concrete states and operands that meet the hypotheses of each statement -/

/-- BUF full of the bytes of q - 1, the greatest canonical encoding. -/
def topBytes (i : Nat) : Byte := if i = 0 then 0xEC else if i = 31 then 0x7F else 0xFF

/-- BUF full of ones: 2^256 - 1, no canonical encoding. -/
def allOnes (_ : Nat) : Byte := 0xFF

/-- BUF holding these bytes. -/
def holding (B : Nat → Byte) : State := withBytes ((List.range 32).map B)

/-- For a rule of two sources: both written (the values q - 1 and 0), ra unwritten, only rb unwritten; and an illegal word. -/
theorem witness_AddWritesSum :
    (both.reg 2 = some (modq (-1)) ∧ both.reg 3 = some (modq 0)) ∧ State.reset.reg 15 = none ∧
    (one.reg 2 ≠ none ∧ one.reg 3 = none) ∧
    (State.reset.status.fault = false ∧ opField 0x01000001 = 0x01 ∧ zeroField 0x01000001 ≠ 0) := by decide

theorem witness_SubWritesDifference :
    (both.reg 3 = some (modq 0) ∧ both.reg 2 = some (modq (-1))) ∧ State.reset.reg 15 = none ∧
    (one.reg 2 ≠ none ∧ one.reg 3 = none) ∧
    (State.reset.status.fault = false ∧ opField 0x02000800 = 0x02 ∧ zeroField 0x02000800 ≠ 0) := by decide

theorem witness_MulWritesProduct :
    (both.reg 2 = some (modq (-1)) ∧ both.reg 3 = some (modq 0)) ∧ State.reset.reg 15 = none ∧
    (one.reg 2 ≠ none ∧ one.reg 3 = none) ∧
    (State.reset.status.fault = false ∧ opField 0x03000FFF = 0x03 ∧ zeroField 0x03000FFF ≠ 0) := by decide

theorem witness_SqrWritesSquare :
    both.reg 2 = some (modq (-1)) ∧ State.reset.reg 0 = none ∧
    (State.reset.status.fault = false ∧ opField 0x04001000 = 0x04 ∧ rbField 0x04001000 ≠ 0) ∧
    (opField 0x04000001 = 0x04 ∧ zeroField 0x04000001 ≠ 0) := by decide

theorem witness_NegWritesNegation :
    both.reg 3 = some (modq 0) ∧ State.reset.reg 0 = none ∧
    (State.reset.status.fault = false ∧ opField 0x05001000 = 0x05 ∧ rbField 0x05001000 ≠ 0) ∧
    (opField 0x05000001 = 0x05 ∧ zeroField 0x05000001 ≠ 0) := by decide

theorem witness_MovCopiesRegister :
    both.reg 2 = some (modq (-1)) ∧ State.reset.reg 0 = none ∧
    (State.reset.status.fault = false ∧ opField 0x06001000 = 0x06 ∧ rbField 0x06001000 ≠ 0) ∧
    (opField 0x06000001 = 0x06 ∧ zeroField 0x06000001 ≠ 0) := by decide

/-- k at 0 and 6 (assigned), k at 7 and 15 (illegal), and a set rb or reserved field. -/
theorem witness_LdkLoadsConstant :
    ((0 : ConstIndex).val ≤ 6 ∧ (6 : ConstIndex).val ≤ 6) ∧ State.reset.status.fault = false ∧
    (opField 0x07070000 = 0x07 ∧ 7 ≤ (raField 0x07070000).toNat) ∧ (opField 0x070F0000 = 0x07 ∧ 7 ≤ (raField 0x070F0000).toNat) ∧
    (opField 0x07061000 = 0x07 ∧ rbField 0x07061000 ≠ 0) ∧ (opField 0x07000001 = 0x07 ∧ zeroField 0x07000001 ≠ 0) := by decide

theorem witness_InvWritesPower :
    both.reg 3 = some (modq 0) ∧ State.reset.reg 0 = none ∧
    (State.reset.status.fault = false ∧ opField 0x08001000 = 0x08 ∧ rbField 0x08001000 ≠ 0) ∧
    (opField 0x08000001 = 0x08 ∧ zeroField 0x08000001 ≠ 0) := by decide

theorem witness_Powq58WritesPower :
    both.reg 2 = some (modq (-1)) ∧ State.reset.reg 0 = none ∧
    (State.reset.status.fault = false ∧ opField 0x09001000 = 0x09 ∧ rbField 0x09001000 ≠ 0) ∧
    (opField 0x09000001 = 0x09 ∧ zeroField 0x09000001 ≠ 0) := by decide

/-- 2 is no square: a square's power (q - 1)/2 is 1, and 2's is q - 1. -/
theorem two_has_no_root (r : Nat) : r * r % q ≠ (modq 2).val := by
  intro h
  have : Fact (Nat.Prime q) := ⟨prime_q⟩
  have h2 : (r : ZMod q) * r = 2 := by
    have : ((r * r : Nat) : ZMod q) = ((2 : Nat) : ZMod q) := by
      rw [ZMod.natCast_eq_natCast_iff', h]
      decide
    exact_mod_cast this
  have hm : (2 : ZMod q) ^ ((q - 1) / 2) = -1 := by
    have e : (q - 1) % q = 2 ^ ((q - 1) / 2) % q := by
      have v : (powq (modq 2) ((q - 1) / 2)).val = (q - 1) % q := by decide +kernel
      have w := powq_val (modq 2) ((q - 1) / 2) (by decide)
      rw [show (modq 2).val = 2 by decide] at w
      exact v.symm.trans w
    rw [← ZMod.natCast_eq_natCast_iff', Nat.cast_sub (by decide)] at e
    rw [← Nat.cast_ofNat, ← Nat.cast_pow, ← e]
    simp
  have hr : (r : ZMod q) ≠ 0 := by
    intro h0
    rw [h0, zero_mul] at h2
    have : ((0 : Nat) : ZMod q) = ((2 : Nat) : ZMod q) := by exact_mod_cast h2
    rw [ZMod.natCast_eq_natCast_iff'] at this
    exact absurd this (by decide)
  have h1 : (2 : ZMod q) ^ ((q - 1) / 2) = 1 := by
    rw [← h2, ← pow_two, ← pow_mul, show 2 * ((q - 1) / 2) = q - 1 by decide, ZMod.pow_card_sub_one_eq_one hr]
  have hne : ((1 : Nat) : ZMod q) = ((q - 1 : Nat) : ZMod q) := by
    rw [Nat.cast_sub (by decide), Nat.cast_one, ZMod.natCast_self, zero_sub, ← hm, h1]
  rw [ZMod.natCast_eq_natCast_iff'] at hne
  exact absurd hne (by decide)

/-- A written source for each of the three ways: 9 (direct root), 4 (the SQRTM1 path), 2 (no root); 0 meets both conditions. -/
theorem witness_SqrtWritesCandidateOrAlternative :
    (withRegs [(5, 9)]).reg 5 = some (modq 9) ∧ squareRoot (modq 9) = some (rootCandidate (modq 9)) ∧
    (withRegs [(5, 4)]).reg 5 = some (modq 4) ∧ squareRoot (modq 4) = some (mulq (rootCandidate (modq 4)) sqrtm1) ∧
    (withRegs [(5, 2)]).reg 5 = some (modq 2) ∧ squareRoot (modq 2) = none ∧
    (withRegs [(5, 0)]).reg 5 = some (modq 0) ∧ squareRoot (modq 0) = some (modq 0) := by decide +kernel

theorem witness_SqrtMissingRootIsStatus : one.reg 2 = some (modq 2) ∧ ∀ r : Nat, r * r % q ≠ (modq 2).val :=
  ⟨by decide, two_has_no_root⟩

theorem witness_SqrtEncodingAndFaults :
    State.reset.reg 15 = none ∧ State.reset.status.fault = false ∧ (opField 0x0A00F000 = 0x0A ∧ rbField 0x0A00F000 ≠ 0) ∧
    (opField 0x0A000800 = 0x0A ∧ zeroField 0x0A000800 ≠ 0) := by decide

/-- 4 = 2 * 2 has a root and 2 has none, so both sides of the equivalence occur. -/
theorem witness_SqrtSoundAndComplete :
    ((withRegs [(5, 4)]).reg 5 = some (modq 4) ∧ 2 * 2 % q = (modq 4).val) ∧
    (one.reg 2 = some (modq 2) ∧ ¬ ∃ r : Nat, r * r % q = (modq 2).val) :=
  ⟨by decide, by decide, fun ⟨r, h⟩ => two_has_no_root r h⟩

/-- BUF full; BUF with only byte 31 unwritten; and a set ra, rb or reserved field. -/
theorem witness_DecReadsBuffer :
    BufferHolds (holding allOnes) allOnes ∧ (withBytes (List.replicate 31 0)).buf.read 31 = none ∧
    State.reset.status.fault = false ∧ (opField 0x10010000 = 0x10 ∧ raField 0x10010000 ≠ 0) ∧
    (opField 0x10001000 = 0x10 ∧ rbField 0x10001000 ≠ 0) ∧ (opField 0x10000001 = 0x10 ∧ zeroField 0x10000001 ≠ 0) := by
  unfold BufferHolds
  decide

theorem witness_EncWritesCanonicalBytes :
    both.reg 2 = some (modq (-1)) ∧ State.reset.reg 0 = none ∧ State.reset.status.fault = false ∧
    (opField 0x11100000 = 0x11 ∧ rdField 0x11100000 ≠ 0) ∧ (opField 0x11001000 = 0x11 ∧ rbField 0x11001000 ≠ 0) ∧
    (opField 0x11000001 = 0x11 ∧ zeroField 0x11000001 ≠ 0) := by decide

/-- Equal values (one register twice) and different ones. -/
theorem witness_EqComparesValues :
    (both.reg 2 = some (modq (-1)) ∧ both.reg 3 = some (modq 0)) ∧ State.reset.reg 0 = none ∧
    (one.reg 2 ≠ none ∧ one.reg 3 = none) ∧ State.reset.status.fault = false ∧
    (opField 0x18100000 = 0x18 ∧ rdField 0x18100000 ≠ 0) ∧ (opField 0x18000001 = 0x18 ∧ zeroField 0x18000001 ≠ 0) := by
  decide

theorem witness_IsnegReportsParity :
    both.reg 2 = some (modq (-1)) ∧ State.reset.reg 0 = none ∧ State.reset.status.fault = false ∧
    (opField 0x19100000 = 0x19 ∧ rdField 0x19100000 ≠ 0) ∧ (opField 0x19001000 = 0x19 ∧ rbField 0x19001000 ≠ 0) ∧
    (opField 0x19000001 = 0x19 ∧ zeroField 0x19000001 ≠ 0) := by decide

theorem witness_EncThenDecRestoresValue : both.reg 2 = some (modq (-1)) := by decide

/-- A value below q (its greatest, q - 1) and one that is not (2^256 - 1). -/
theorem witness_DecThenEncCanonicalizes :
    (BufferHolds (holding topBytes) topBytes ∧ bufferValue topBytes < q) ∧
    (BufferHolds (holding allOnes) allOnes ∧ q ≤ bufferValue allOnes) := by
  unfold BufferHolds
  rw [← leValue_buffer, ← leValue_buffer]
  decide +kernel

theorem witness_InvIsInverse :
    both.reg 2 = some (modq (-1)) ∧ both.reg 3 = some (modq 0) ∧ (1 : Reg) ≠ 2 ∧ (1 : Reg) ≠ 3 ∧
    (modq (-1)).val ≠ 0 ∧ (modq 0).val = 0 := by decide

theorem witness_NegFlipsParity :
    both.reg 2 = some (modq (-1)) ∧ both.reg 3 = some (modq 0) ∧ (modq (-1)).val ≠ 0 ∧ (modq 0).val = 0 := by decide

/-- An arithmetic command that completes, and one that faults. -/
theorem witness_ArithmeticFrame :
    Op.add ∈ [Op.add, .sub, .mul, .sqr, .neg, .mov, .ldk, .inv, .powq58] ∧
    exec (.add 1 2 3) both = .next (both.writeReg 1 (modq (-1))) ∧
    exec (.add 1 2 3) State.reset = .next (State.reset.raise (.uninitReg 2) 0x01123000) :=
  ⟨by decide, next_of _ _ (by decide), next_of _ _ (by decide)⟩

/-- A SQRT that leaves its destination unwritten, one that writes it, and one that faults. -/
theorem witness_RegisterWriters :
    exec (.sqrt 1 2) one = .next ((one.clearReg 1).setNoroot true) ∧
    exec (.sqrt 1 3) both = .next ((both.writeReg 1 (modq 0)).setNoroot false) ∧
    exec (.sqrt 1 0) both = .next (both.raise (.uninitReg 0) 0x0A100000) :=
  ⟨next_of _ _ (by decide +kernel), next_of _ _ (by decide +kernel), next_of _ _ (by decide)⟩

/-- The writers of each STATUS field and of BUF: EQ, DEC, SQRT, ENC. -/
theorem witness_CommandFrame :
    exec (.eq 2 2) one = .next (one.setRes true) ∧
    exec (.dec 1) (holding allOnes) = .next (((holding allOnes).setSign true).writeReg 1 (modq 18)) ∧
    exec (.sqrt 1 2) one = .next ((one.clearReg 1).setNoroot true) ∧
    exec (.enc 2) one = .next (one.writeBufBytes 0 (leBytes 32 2)) :=
  ⟨next_of _ _ (by decide), next_of _ _ (by decide +kernel), next_of _ _ (by decide +kernel),
    next_of _ _ (by decide)⟩

/-- Steps that change RES, SIGN and NOROOT, none of them an assertion of reset. -/
theorem witness_ResultFieldWriters :
    step (one.withHost [.write32 0 0x18022000]) = .next (one.setRes true) ∧
    step ((holding allOnes).withHost [.write32 0 0x10100000]) = .next (((holding allOnes).setSign true).writeReg 1 (modq 18)) ∧
    step (one.withHost [.write32 0 0x0A120000]) = .next ((one.clearReg 1).setNoroot true) ∧
    (one.withHost [.write32 0 0x18022000]).host.head? ≠ some (.resetLine true) :=
  ⟨next_of _ _ (by decide), next_of _ _ (by decide +kernel), next_of _ _ (by decide +kernel), by decide⟩

theorem witness_RegistersChangeOnlyByCommand :
    step (State.reset.withHost [.write32 0 0x07110000]) = .next (State.reset.writeReg 1 (modq 1)) ∧
    (State.reset.withHost [.write32 0 0x07110000]).host.head? ≠ some (.resetLine true) ∧
    (State.reset.writeReg 1 (modq 1)).reg 1 ≠ State.reset.reg 1 :=
  ⟨next_of _ _ (by decide), by decide, by decide⟩

/-- A byte write at the last offset, and an ENC. -/
theorem witness_BufferChangesOnlyByWriteOrEnc :
    step (State.reset.withHost [.write8 63 0x5A]) = .next (State.reset.writeBuf 31 0x5A) ∧
    (State.reset.writeBuf 31 0x5A).buf.read 31 ≠ State.reset.buf.read 31 ∧
    step (one.withHost [.write32 0 0x11020000]) = .next (one.writeBufBytes 0 (leBytes 32 2)) ∧
    (one.writeBufBytes 0 (leBytes 32 2)).buf.read 0 ≠ one.buf.read 0 ∧
    (State.reset.withHost [.write8 63 0x5A]).host.head? ≠ some (.resetLine true) :=
  ⟨next_of _ _ (by decide), by decide, next_of _ _ (by decide), by decide, by decide⟩

/-- A step that enters a fault, and one in a faulted state. -/
theorem witness_FaultRecordWriters :
    step (State.reset.withHost [.write32 0 0]) = .next (State.reset.raise .illegalCmd 0) ∧
    (State.reset.withHost [.write32 0 0]).host.head? ≠ some (.resetLine true) ∧
    step (faulted.withHost [.write32 0 0]) = .next faulted ∧ faulted.status.fault = true :=
  ⟨next_of _ _ (by decide), by decide, next_of _ _ (by decide), by decide⟩

/-- A faulted state with reset released, BUF[0] written and BUF[31] not, and each of the events. -/
theorem witness_FaultedUnitIgnoresCommands :
    faulted.status.fault = true ∧ faulted.resetHeld = false ∧
    (faulted.withHost [.write32 0 7]).host = .write32 0 7 :: [] ∧ (faulted.withHost [.read32 4]).host = .read32 4 :: [] ∧
    (faulted.withHost [.read32 8]).host = .read32 8 :: [] ∧
    ((32 : Fin 64).val = 32 + (0 : Fin 32).val ∧ faulted.buf.read 0 = some 0x5A ∧
      (faulted.withHost [.read8 32]).host = .read8 32 :: []) ∧
    (faulted.buf.read 31 = none ∧ (faulted.withHost [.read8 63]).host = .read8 63 :: []) ∧
    ((63 : Fin 64).val = 32 + (31 : Fin 32).val ∧ (faulted.withHost [.write8 63 1]).host = .write8 63 1 :: []) ∧
    (faulted.withHost [.resetLine true]).host = .resetLine true :: [] ∧
    (State.reset.assertReset.status.fault = false ∧ step (faulted.withHost [.resetLine true]) = .next State.reset.assertReset) :=
  ⟨by decide, by decide, by decide, by decide, by decide, by decide, by decide, by decide, by decide, by decide,
    next_of _ _ (by decide)⟩

/-- A word for each of R75's four conditions, and a word that meets none (k at 6). -/
theorem witness_IllegalWordsRaise :
    (faulted.status.fault = true ∧ State.reset.status.fault = false) ∧ (∀ o : Op, o.code ≠ opField 0x0B000000) ∧ zeroField 0x01000001 ≠ 0 ∧
    (Op.sqr.code = opField 0x04001000 ∧ Op.sqr.form.unusedZero 0x04001000 = false) ∧
    (opField 0x07070000 = 0x07 ∧ 7 ≤ (raField 0x07070000).toNat) ∧
    ¬ ((∀ o : Op, o.code ≠ opField 0x07060000) ∨ zeroField 0x07060000 ≠ 0 ∨
      (∃ o : Op, o.code = opField 0x07060000 ∧ o.form.unusedZero 0x07060000 = false) ∨
      (opField 0x07060000 = 0x07 ∧ 7 ≤ (raField 0x07060000).toNat)) := by
  refine ⟨by decide, fun o => by cases o <;> decide, by decide, by decide, by decide, ?_⟩
  rintro (h | h | ⟨o, h⟩ | h)
  · exact h .ldk (by decide)
  · exact h (by decide)
  · cases o <;> exact absurd h (by decide)
  · exact absurd h (by decide)

/-- LDK's row at k = 6 and at k = 7, which the row's match takes and the decoder does not; and ISNEG's row. -/
theorem witness_OpcodeRowsSelect :
    (0x07060000 &&& Op.ldk.rowMask = Op.ldk.rowMatch ∧ (raField 0x07060000).toNat ≤ 6) ∧
    (0x07070000 &&& Op.ldk.rowMask = Op.ldk.rowMatch ∧ ¬ (raField 0x07070000).toNat ≤ 6) ∧
    0x190F0000 &&& Op.isneg.rowMask = Op.isneg.rowMatch := by decide

theorem witness_DecodeOfEncode : WellFormed (.ldk 15 6) ∧ WellFormed (.add 15 0 15) := by decide

theorem witness_EncodeOfDecode : decode 0x010F0000 = .ok (.add 0 15 0) := by rfl

theorem witness_AssembleOfText : WellFormed (.ldk 15 6) ∧ WellFormed (.isneg 0) := by decide

theorem witness_StepRunsDecodedCommand :
    State.reset.resetHeld = false ∧ State.reset.status.fault = false ∧
    (State.reset.withHost [.write32 0 0x07110000]).host = .write32 0 0x07110000 :: [] ∧ decode 0x07110000 = .ok (.ldk 1 1) :=
  ⟨rfl, rfl, rfl, rfl⟩

/-- The five cases of one command step: already faulted, illegal, unwritten register, unwritten byte, none. -/
theorem witness_FaultPriority :
    faulted.status.fault = true ∧ statusAfter 0x0B000000 State.reset = some 0x18 ∧
    (Instr.add 1 2 3).sources.find? (fun r => (one.reg r).isNone) = some 3 ∧
    ((Instr.dec 0).sources.find? (fun r => (State.reset.reg r).isNone) = none ∧ State.reset.buf.read 31 = none) ∧
    (Instr.add 1 2 3).sources.find? (fun r => (both.reg r).isNone) = none := by decide

/-- Two states with the same marks and different values. -/
theorem witness_MarksAloneDecideFaults :
    SameMarks ((withRegs [(2, 1)]).writeBuf 31 0) ((withRegs [(2, -1)]).writeBuf 31 0xFF) ∧
    ((withRegs [(2, 1)]).writeBuf 31 0).status.fault = false ∧ ((withRegs [(2, -1)]).writeBuf 31 0xFF).status.fault = false := by
  unfold SameMarks
  decide

/-- Two states that agree on the source f2 and nowhere else: another register and the flags differ. -/
theorem witness_ResultsDependOnOperandsOnly :
    (∀ r, r ∈ (Instr.inv 1 2).sources → one.reg r = ((one.writeReg 3 (modq 9)).setRes true).reg r) ∧
    (Instr.inv 1 2).op ≠ .dec ∧ exec (.mov 1 2) one = .next (one.writeReg 1 (modq 2)) ∧
    (one.writeReg 1 (modq 2)).status.fault = one.status.fault ∧ one.status.fault = false ∧
    (∀ a, a < 32 → (holding allOnes).buf.read a = ((holding allOnes).setRes true).buf.read a) :=
  ⟨by decide, by decide, next_of _ _ (by decide), by decide, by decide, by decide⟩

/-- Every clause of Inv at a state that is not State.reset: a sound fault record, a canonical BUF; and reset held. -/
theorem witness_StepKeepsInv :
    Inv faulted ∧ step (faulted.withHost [.write8 63 1]) = .next (faulted.writeBuf 31 1) ∧
    Inv State.reset.assertReset ∧ step (State.reset.assertReset.withHost [.resetLine false]) = .next State.reset :=
  ⟨⟨by decide, ⟨.mov 0 1, rfl, by decide⟩, fun h => by cases h⟩, next_of _ _ (by decide),
    ⟨by decide, ⟨rfl, rfl, rfl⟩, fun _ => ⟨by decide, by decide, rfl, rfl, fun _ => rfl⟩⟩,
    next_of _ _ (by decide)⟩

/-- Reset asserted in a faulted state, which is the step that clears FAULT. -/
theorem witness_ResetRestoresState :
    (faulted.withHost [.resetLine true]).host = .resetLine true :: [] ∧
    step (faulted.withHost [.resetLine true]) = .next State.reset.assertReset ∧ faulted.status.fault = true ∧
    State.reset.assertReset.status.fault = false :=
  ⟨rfl, next_of _ _ (by decide), by decide, by decide⟩

theorem witness_ReleasedResetIsReady :
    (faulted.withHost [.resetLine true, .resetLine false]).host = .resetLine true :: .resetLine false :: [] := by decide

theorem witness_IdleRetainsState : faulted.host = [] := by decide

theorem witness_StepTakesOneEvent :
    (faulted.withHost [.read32 4]).host = .read32 4 :: [] ∧ (nextOf (step (faulted.withHost [.read32 4]))).isSome = true := by
  decide

theorem witness_BufferWriteThenRead :
    State.reset.resetHeld = false ∧ (63 : Fin 64).val = 32 + (31 : Fin 32).val ∧
    (State.reset.withHost [.write8 63 1, .read8 63]).host = .write8 63 1 :: .read8 63 :: [] := by decide

theorem witness_ReadsHaveNoSideEffect :
    (nextOf (step (faulted.withHost [.read32 4]))).isSome = true ∧ (nextOf (step (faulted.withHost [.read8 32]))).isSome = true ∧
    (faulted.withHost [.read8 32]).host.head? = some (.read8 32) := by decide

theorem witness_UnwrittenByteReadsFree :
    State.reset.resetHeld = false ∧ (63 : Fin 64).val = 32 + (31 : Fin 32).val ∧ State.reset.buf.read 31 = none ∧
    (State.reset.withHost [.read8 63, .read8 63]).host = .read8 63 :: .read8 63 :: [] := by decide

theorem witness_RegisterPorts :
    faulted.resetHeld = false ∧ (faulted.withHost [.read32 0]).host = .read32 0 :: [] ∧
    (faulted.withHost [.read32 4]).host = .read32 4 :: [] ∧ (faulted.withHost [.read32 8]).host = .read32 8 :: [] ∧
    (faulted.withHost [.write32 4 1]).host = .write32 4 1 :: [] ∧
    (faulted.withHost [.write32 8 1]).host = .write32 8 1 :: [] := by decide

/-- The first and last reserved bytes, and the first and last aligned reserved words. -/
theorem witness_ReservedOffsets :
    State.reset.resetHeld = false ∧ (0x0C ≤ (0x0C : Fin 64).val ∧ (0x0C : Fin 64).val < 0x20 ∧ (0x0C : Fin 64).val % 4 = 0) ∧
    (0x0C ≤ (0x1C : Fin 64).val ∧ (0x1C : Fin 64).val < 0x20 ∧ (0x1C : Fin 64).val % 4 = 0) ∧
    (0x0C ≤ (0x1F : Fin 64).val ∧ (0x1F : Fin 64).val < 0x20) ∧
    (State.reset.withHost [.write32 0x1C 1]).host = .write32 0x1C 1 :: [] ∧
    (State.reset.withHost [.read8 0x1F]).host = .read8 0x1F :: [] := by decide

/-- Each clause at the ends of its ranges; offsets 0x0C to 0x1C are under none of the last two. -/
theorem witness_WrongAccessesRefused :
    State.reset.resetHeld = false ∧ (State.reset.withHost [.read16 0x0C]).host = .read16 0x0C :: [] ∧
    (0x0B : Fin 64).val < 0x0C ∧ ¬ (0x0C : Fin 64).val < 0x0C ∧
    (0x20 ≤ (0x20 : Fin 64).val ∧ 0x20 ≤ (0x3F : Fin 64).val) ∧
    ((0x0B : Fin 64).val % 4 ≠ 0 ∧ (0x0B : Fin 64).val < 0x0C) ∧ ((0x1D : Fin 64).val % 4 ≠ 0 ∧ 0x1C < (0x1D : Fin 64).val) ∧
    nextOf (step (State.reset.withHost [.read32 0x1D])) = none ∧
    (nextOf (step (State.reset.withHost [.read32 0x1C]))).isSome = true := by decide

theorem witness_WindowAtBase : Config.fauBase + 64 < Config.fauBase ∨ Config.fauBase + 64 ≤ Config.fauBase + 64 :=
  .inr (Nat.le_refl _)

theorem witness_HeldResetStopsAccesses :
    State.reset.assertReset.resetHeld = true ∧ (State.reset.assertReset.withHost [.read32 4]).host = .read32 4 :: [] ∧
    ∀ l, HostEvent.read32 4 ≠ .resetLine l := by decide

end Sys2Proof.Tests
end

section
/-!
PROOFS of the statements of 00_scope.md. R8: a command that does not fault hands the same operand values to the same update,
whatever else the state holds.
-/

namespace Sys2Proof.Machine

theorem State.raise_fault_ne_false (s : State) (r : Raised) (w : CmdWord) : (s.raise r w).status.fault ≠ false := by
  simp

section

variable {i : Instr} {s s' t t' : State}

/-- Without a fault, states that agree on the source hand the same value on. -/
theorem withSource_agree {w w' : CmdWord} {ra : Reg} {k k' : Fq → Answer} (hr : s.reg ra = s'.reg ra)
    (hf : t.status.fault = false) (h : withSource w ra s k = .next t) (h' : withSource w' ra s' k' = .next t') :
    ∃ a, k a = .next t ∧ k' a = .next t' := by
  rcases withSource_next _ _ _ _ _ h with ⟨a, ha, hk⟩ | ⟨-, rfl⟩
  · rw [withSource_some _ _ _ _ a (hr ▸ ha)] at h'
    exact ⟨a, hk, h'⟩
  · exact absurd hf (State.raise_fault_ne_false _ _ _)

/-- Without a fault, states that agree on both sources hand the same two values on. -/
theorem withSources_agree {w w' : CmdWord} {ra rb : Reg} {k k' : Fq → Fq → Answer}
    (ha : s.reg ra = s'.reg ra) (hb : s.reg rb = s'.reg rb) (hf : t.status.fault = false)
    (h : withSources w ra rb s k = .next t) (h' : withSources w' ra rb s' k' = .next t') :
    ∃ a b, k a b = .next t ∧ k' a b = .next t' := by
  obtain ⟨a, h, h'⟩ := withSource_agree ha hf h h'
  exact ⟨a, withSource_agree hb hf h h'⟩

/-- Without a fault, states that agree on BUF hand the same 32 bytes on. -/
theorem withBuffer_agree {w w' : CmdWord} {k k' : List Byte → Answer}
    (hb : ∀ a, a < 32 → s.buf.read a = s'.buf.read a) (hf : t.status.fault = false)
    (h : withBuffer w s k = .next t) (h' : withBuffer w' s' k' = .next t') :
    ∃ bs, k bs = .next t ∧ k' bs = .next t' := by
  rcases withBuffer_next _ _ _ _ h with ⟨B, hB, hk⟩ | ⟨-, rfl⟩
  · rw [withBuffer_some _ _ _ B fun i hi => hb i hi ▸ hB i hi] at h'
    exact ⟨_, hk, h'⟩
  · exact absurd hf (State.raise_fault_ne_false _ _ _)

/-- Without a fault, a constant operand is the same in every state. -/
theorem withConstant_agree {w w' : CmdWord} {c : ConstIndex} {k k' : Fq → Answer}
    (hf : t.status.fault = false) (h : withConstant w c s k = .next t) (h' : withConstant w' c s' k' = .next t') :
    ∃ a, k a = .next t ∧ k' a = .next t' := by
  rcases withConstant_next _ _ _ _ _ h with ⟨a, ha, hk⟩ | ⟨-, rfl⟩
  · rcases withConstant_next _ _ _ _ _ h' with ⟨a', ha', hk'⟩ | ⟨hn, -⟩
    · cases ha.symm.trans ha'
      exact ⟨a, hk, hk'⟩
    · cases ha.symm.trans hn
  · exact absurd hf (State.raise_fault_ne_false _ _ _)

/-- The results of a command i are the same in t and t': its destination register, and the STATUS field or the BUF bytes it
reports in (R8, R26, R33 to R35, R182). -/
def SameResults (i : Instr) (t t' : State) : Prop :=
  (∀ rd, i.dest = some rd → t.reg rd = t'.reg rd) ∧
  (i.op = .eq ∨ i.op = .isneg → t.status.res = t'.status.res) ∧ (i.op = .dec → t.status.sign = t'.status.sign) ∧
  (i.op = .sqrt → t.status.noroot = t'.status.noroot) ∧ (i.op = .enc → ∀ a, a < 32 → t.buf.read a = t'.buf.read a)

/-- The commands whose one result is the value of their destination register (R103, R116, R140, R142). -/
def registerOps : List Op := [.add, .sub, .mul, .sqr, .neg, .mov, .ldk, .inv, .powq58]

/-- Of the commands that report nothing but a register's value, the results are the value written. -/
theorem sameResults_writeReg {rd : Reg} {v : Fq} (hop : i.op ∈ registerOps) (hd : i.dest = some rd)
    (h : (.next (s.writeReg rd v) : Answer) = .next t) (h' : (.next (s'.writeReg rd v) : Answer) = .next t') :
    SameResults i t t' := by
  cases h
  cases h'
  refine ⟨fun rd' hrd => ?_, ?_, ?_, ?_, ?_⟩
  · cases hd.symm.trans hrd
    simp
  · rintro (ho | ho) <;> simp [ho, registerOps] at hop
  all_goals
    intro ho
    simp [ho, registerOps] at hop

/-- A command that writes a function of one source to its destination register. -/
theorem sameResults_unary {w w' : CmdWord} {rd ra : Reg} {f : Fq → Fq}
    (hop : i.op ∈ registerOps) (hd : i.dest = some rd)
    (hi : i.sources = [ra]) (hsrc : ∀ r, r ∈ i.sources → s.reg r = s'.reg r) (hf : t.status.fault = false)
    (h : withSource w ra s (fun a => .next (s.writeReg rd (f a))) = .next t)
    (h' : withSource w' ra s' (fun a => .next (s'.writeReg rd (f a))) = .next t') : SameResults i t t' := by
  obtain ⟨a, h, h'⟩ := withSource_agree (hsrc ra (by simp [hi])) hf h h'
  exact sameResults_writeReg hop hd h h'

/-- A command that writes a function of two sources to its destination register. -/
theorem sameResults_binary {w w' : CmdWord} {rd ra rb : Reg} {f : Fq → Fq → Fq}
    (hop : i.op ∈ registerOps) (hd : i.dest = some rd)
    (hi : i.sources = [ra, rb]) (hsrc : ∀ r, r ∈ i.sources → s.reg r = s'.reg r) (hf : t.status.fault = false)
    (h : withSources w ra rb s (fun a b => .next (s.writeReg rd (f a b))) = .next t)
    (h' : withSources w' ra rb s' (fun a b => .next (s'.writeReg rd (f a b))) = .next t') : SameResults i t t' := by
  obtain ⟨a, b, h, h'⟩ := withSources_agree (hsrc ra (by simp [hi])) (hsrc rb (by simp [hi])) hf h h'
  exact sameResults_writeReg hop hd h h'

theorem sameResults_sqrt (rd ra : Reg) (hr : s.reg ra = s'.reg ra) (hf : t.status.fault = false)
    (h : execSqrt rd ra s = .next t) (h' : execSqrt rd ra s' = .next t') : SameResults (.sqrt rd ra) t t' := by
  obtain ⟨a, h, h'⟩ := withSource_agree hr hf h h'
  cases hroot : squareRoot a with
  | some r =>
    simp only [hroot] at h h'
    cases h
    cases h'
    simp [SameResults, Instr.dest, Instr.op]
  | none =>
    simp only [hroot] at h h'
    cases h
    cases h'
    simp [SameResults, Instr.dest, Instr.op]

theorem sameResults_dec (rd : Reg) (hb : ∀ a, a < 32 → s.buf.read a = s'.buf.read a)
    (hf : t.status.fault = false) (h : execDec rd s = .next t) (h' : execDec rd s' = .next t') :
    SameResults (.dec rd) t t' := by
  obtain ⟨bs, h, h'⟩ := withBuffer_agree hb hf h h'
  cases h
  cases h'
  simp [SameResults, Instr.dest, Instr.op]

theorem sameResults_enc (ra : Reg) (hr : s.reg ra = s'.reg ra) (hf : t.status.fault = false)
    (h : execEnc ra s = .next t) (h' : execEnc ra s' = .next t') : SameResults (.enc ra) t t' := by
  obtain ⟨a, h, h'⟩ := withSource_agree hr hf h h'
  cases h
  cases h'
  have hbytes : ∀ i, i < 32 → (s.writeBufBytes 0 (leBytes 32 a.val)).buf.read i =
      (s'.writeBufBytes 0 (leBytes 32 a.val)).buf.read i := fun i hi => by
    rw [State.read_encoded _ _ _ hi, State.read_encoded _ _ _ hi]
  simpa [SameResults, Instr.dest, Instr.op] using hbytes

theorem sameResults_eq (ra rb : Reg) (ha : s.reg ra = s'.reg ra) (hb : s.reg rb = s'.reg rb)
    (hf : t.status.fault = false) (h : execEq ra rb s = .next t) (h' : execEq ra rb s' = .next t') :
    SameResults (.eq ra rb) t t' := by
  obtain ⟨a, b, h, h'⟩ := withSources_agree ha hb hf h h'
  cases h
  cases h'
  simp [SameResults, Instr.dest, Instr.op]

theorem sameResults_isneg (ra : Reg) (hr : s.reg ra = s'.reg ra) (hf : t.status.fault = false)
    (h : execIsneg ra s = .next t) (h' : execIsneg ra s' = .next t') : SameResults (.isneg ra) t t' := by
  obtain ⟨a, h, h'⟩ := withSource_agree hr hf h h'
  cases h
  cases h'
  simp [SameResults, Instr.dest, Instr.op]

/-- A command that does not fault has the same results from every state with its operands (R8). -/
theorem exec_sameResults (i : Instr) (hsrc : ∀ r, r ∈ i.sources → s.reg r = s'.reg r)
    (hbuf : i.op = .dec → ∀ a, a < 32 → s.buf.read a = s'.buf.read a) (hf : t.status.fault = false)
    (h : exec i s = .next t) (h' : exec i s' = .next t') : SameResults i t t' := by
  cases i with
  | add rd ra rb => exact sameResults_binary (by simp [Instr.op, registerOps]) rfl rfl hsrc hf h h'
  | sub rd ra rb => exact sameResults_binary (by simp [Instr.op, registerOps]) rfl rfl hsrc hf h h'
  | mul rd ra rb => exact sameResults_binary (by simp [Instr.op, registerOps]) rfl rfl hsrc hf h h'
  | sqr rd ra => exact sameResults_unary (by simp [Instr.op, registerOps]) rfl rfl hsrc hf h h'
  | neg rd ra => exact sameResults_unary (by simp [Instr.op, registerOps]) rfl rfl hsrc hf h h'
  | mov rd ra => exact sameResults_unary (by simp [Instr.op, registerOps]) rfl rfl hsrc hf h h'
  | ldk rd k =>
    obtain ⟨c, h, h'⟩ := withConstant_agree hf h h'
    exact sameResults_writeReg (by simp [Instr.op, registerOps]) rfl h h'
  | inv rd ra => exact sameResults_unary (by simp [Instr.op, registerOps]) rfl rfl hsrc hf h h'
  | powq58 rd ra => exact sameResults_unary (by simp [Instr.op, registerOps]) rfl rfl hsrc hf h h'
  | sqrt rd ra => exact sameResults_sqrt rd ra (hsrc ra (by simp [Instr.sources])) hf h h'
  | dec rd => exact sameResults_dec rd (hbuf rfl) hf h h'
  | enc ra => exact sameResults_enc ra (hsrc ra (by simp [Instr.sources])) hf h h'
  | eq ra rb =>
    exact sameResults_eq ra rb (hsrc ra (by simp [Instr.sources])) (hsrc rb (by simp [Instr.sources])) hf h h'
  | isneg ra => exact sameResults_isneg ra (hsrc ra (by simp [Instr.sources])) hf h h'

end

/-- Settles O40: without a fault each command hands the same operands to the same update. -/
theorem resultsDependOnOperandsOnly : Obligations.ResultsDependOnOperandsOnly := by
  intro i s s' t t' hsrc hbuf h h' hkeep hs
  obtain ⟨hfault, -, -, -⟩ := hkeep
  exact exec_sameResults i hsrc hbuf (hfault.trans hs) h h'

end Sys2Proof.Machine
end

section
/-!
PROOFS of the statements of 10_state.md. R26, R33 to R36: a command ignored, in fault entry or performed is all that can change the
register file, STATUS and FCMD, and a command performed keeps the fault record.
-/

namespace Sys2Proof.Machine

open Sys2Proof.Safety

section

variable {i : Instr} {o : Op} {s t : State} {rd : Reg} {w : CmdWord}

theorem Raised.cause_ne_noFault (r : Raised) : r.cause ≠ .noFault := by
  cases r <;> simp [Raised.cause]

theorem keepsRegsBut_writeReg (s : State) (rd : Reg) (v : Fq) : KeepsRegsBut rd s (s.writeReg rd v) :=
  fun r hr => State.reg_writeReg_ne s rd r v hr

theorem keepsRegsBut_clearReg (s : State) (rd : Reg) : KeepsRegsBut rd s (s.clearReg rd) :=
  fun r hr => State.reg_clearReg_ne s rd r hr

/-- With the fields its form does not use 0, a word is the one encoding of the command built from it (R70, R72). -/
theorem encode_build (hu : o.form.unusedZero w = true) :
    encode (o.build w) = packWord o.code (rdField w) (raField w) (rbField w) := by
  cases o <;> simp only [Op.form, Form.unusedZero, Bool.and_eq_true, beq_iff_eq] at hu <;>
    simp [Op.build, encode, Op.code, hu]

/-- The word a command decodes from is its encoding, so it is the word fault entry records. -/
theorem encode_of_decode (h : decode w = .ok i) : encode i = w := by
  obtain ⟨o, hcode, hzero, hunused, rfl, -⟩ := (decode_eq_ok_iff w i).1 h
  rw [encode_build hunused, hcode, packWord_fields w hzero]

/-- A command's rule keeps the fault record or is fault entry (R203). -/
theorem exec_raise_or_keepsFaultRecord (h : exec i s = .next t) :
    (∃ r, t = s.raise r (encode i)) ∨ KeepsFaultRecord s t := by
  rcases exec_next i s t h with ⟨r, -, rfl⟩ | ⟨-, rd, v, -, rfl⟩ | ⟨rd, ra, -, ⟨v, rfl⟩ | rfl⟩ | ⟨rd, b, v, -, rfl⟩ |
    ⟨ra, bs, -, -, rfl⟩ | ⟨-, b, rfl⟩
  · exact .inl ⟨r, rfl⟩
  all_goals exact .inr ⟨rfl, rfl, rfl, rfl⟩

/-- Of the commands' rules only EQ's and ISNEG's change RES, only DEC's SIGN and only SQRT's NOROOT (R33 to R35). -/
theorem exec_resultFields (h : exec i s = .next t) :
    (t.status.res ≠ s.status.res → i.op = .eq ∨ i.op = .isneg) ∧
    (t.status.sign ≠ s.status.sign → i.op = .dec) ∧ (t.status.noroot ≠ s.status.noroot → i.op = .sqrt) := by
  rcases exec_next i s t h with ⟨r, -, rfl⟩ | ⟨-, rd, v, -, rfl⟩ | ⟨rd, ra, rfl, ⟨v, rfl⟩ | rfl⟩ | ⟨rd, b, v, rfl, rfl⟩ |
    ⟨ra, bs, -, -, rfl⟩ | ⟨⟨ra, rb, rfl⟩ | ⟨ra, rfl⟩, b, rfl⟩ <;> simp [Instr.op]

/-- A command step is ignored while FAULT = 1, else it is fault entry with the word, or a command performed without a fault
(R76, R203, R208). -/
theorem command_next (h : command w s = .next t) :
    (s.status.fault = true ∧ t = s) ∨
    (s.status.fault = false ∧
      ((∃ r, t = s.raise r w) ∨ ∃ i, decode w = .ok i ∧ exec i s = .next t ∧ KeepsFaultRecord s t)) := by
  cases hf : s.status.fault with
  | true =>
    rw [command_faulted w s hf] at h
    cases h
    exact .inl ⟨rfl, rfl⟩
  | false =>
    refine .inr ⟨rfl, ?_⟩
    cases hd : decode w with
    | error e =>
      rw [command_illegal w s e hf hd] at h
      cases h
      exact .inl ⟨.illegalCmd, rfl⟩
    | ok i =>
      rw [command_ok w s i hf hd] at h
      rcases exec_raise_or_keepsFaultRecord h with ⟨r, hr⟩ | hk
      · exact .inl ⟨r, encode_of_decode hd ▸ hr⟩
      · exact .inr ⟨i, rfl, h, hk⟩

/-- A step that is no assertion of reset leaves the registers, STATUS and FCMD as they are, but for a command step on a write
to CMD. -/
theorem step_keeps_or_command (h : step s = .next t) (hr : s.host.head? ≠ some (.resetLine true)) :
    (KeepsRegs s t ∧ t.status = s.status ∧ t.fcmd = s.fcmd) ∨
    ∃ w, s.host.head? = some (.write32 0 w) ∧ command w { s with host := s.host.tail } = .next t := by
  cases hs : s.host with
  | nil =>
    cases (step_idle s hs).symm.trans h
    exact .inl ⟨fun _ => rfl, rfl, rfl⟩
  | cons e rest =>
    rcases hostEvent_next e _ t ((nextEvent_cons s e rest hs).symm.trans h) with ⟨rfl, -⟩ | ⟨-, rfl⟩ |
      ⟨-, ⟨off, -, ⟨d, rfl⟩ | ⟨b, rfl⟩⟩ | ⟨rfl, -⟩ | ⟨off, i, b, -, -, rfl⟩ | ⟨w, rfl, hc⟩⟩
    case inl => exact absurd (by simp [hs]) hr
    case inr.inr.inr.inr.inr => exact .inr ⟨w, rfl, hc⟩
    all_goals exact .inl ⟨fun _ => rfl, rfl, rfl⟩

/-- A command that writes rd alone leaves every register but its destination, and what holds of rd holds of its destination. -/
theorem dest_of_keepsRegsBut {P : Reg → Prop} (hd : i.dest = some rd) (hk : KeepsRegsBut rd s t) (hP : P rd) :
    (∀ r, i.dest ≠ some r → t.reg r = s.reg r) ∧ ∀ r, i.dest = some r → P r := by
  refine ⟨fun r hr => hk r fun e => hr (e ▸ hd), fun r hr => ?_⟩
  cases hd.symm.trans hr
  exact hP

/-- A command that writes no register has no destination of which anything could fail. -/
theorem dest_of_keepsRegs {P : Reg → Prop} (hd : i.dest = none) (hk : KeepsRegs s t) :
    (∀ r, i.dest ≠ some r → t.reg r = s.reg r) ∧ ∀ r, i.dest = some r → P r :=
  ⟨fun r _ => hk r, fun r hr => by simp [hd] at hr⟩

end

/-- Settles O23: by the updates of exec_next, each of which writes the destination, clears it (SQRT without a root) or leaves the
register file alone. -/
theorem registerWriters : Obligations.RegisterWriters := by
  intro i s t h
  rcases exec_next i s t h with ⟨r, -, rfl⟩ | ⟨hop, rd, v, hd, rfl⟩ | ⟨rd, ra, rfl, ⟨v, rfl⟩ | rfl⟩ | ⟨rd, b, v, rfl, rfl⟩ |
    ⟨ra, bs, rfl, -, rfl⟩ | ⟨hi, b, rfl⟩
  · exact .inl ⟨fun _ => rfl, r.cause, r.freg, faultEntry_raise s r _⟩
  all_goals refine .inr ⟨⟨rfl, rfl, rfl, rfl⟩, ?_⟩
  · refine dest_of_keepsRegsBut hd (keepsRegsBut_writeReg s rd v) (.inl ⟨by simp, fun ho => ?_⟩)
    simp [ho] at hop
  · exact dest_of_keepsRegsBut (rd := rd) rfl (keepsRegsBut_writeReg s rd v) (.inl ⟨by simp, fun _ => rfl⟩)
  · exact dest_of_keepsRegsBut (rd := rd) rfl (keepsRegsBut_clearReg s rd) (.inr ⟨by simp, rfl, rfl⟩)
  · exact dest_of_keepsRegsBut (rd := rd) rfl (keepsRegsBut_writeReg (s.setSign b) rd v) (.inl ⟨by simp, nofun⟩)
  · exact dest_of_keepsRegs rfl fun _ => rfl
  · refine dest_of_keepsRegs ?_ fun _ => rfl
    rcases hi with ⟨ra, rb, rfl⟩ | ⟨ra, rfl⟩ <;> rfl

/-- Settles O25: a step that changes a result field is a command performed without a fault, and exec_resultFields says which. -/
theorem resultFieldWriters : Obligations.ResultFieldWriters := by
  intro s t h hr performs
  rcases step_keeps_or_command h hr with ⟨-, hstatus, -⟩ | ⟨w, hw, hc⟩
  · simp [hstatus]
  rcases command_next hc with ⟨-, rfl⟩ | ⟨hf, ⟨r, rfl⟩ | ⟨i, hd, hx, hk⟩⟩
  · simp
  · simp
  have hp : performs i := ⟨hf, hk, w, hw, hd⟩
  obtain ⟨hres, hsign, hnoroot⟩ := exec_resultFields hx
  exact ⟨fun hne => ⟨i, hp, hres hne⟩, fun hne => ⟨i, hp, hsign hne⟩, fun hne => ⟨i, hp, hnoroot hne⟩⟩

/-- Settles O28: by the cases of a step and of a command step, of which only fault entry changes the fault record, and only with
FAULT = 0 before. -/
theorem faultRecordWriters : Obligations.FaultRecordWriters := by
  intro s t h hr
  rcases step_keeps_or_command h hr with ⟨-, hstatus, hfcmd⟩ | ⟨w, hw, hc⟩
  · have hk : KeepsFaultRecord s t := by simp [KeepsFaultRecord, hstatus, hfcmd]
    exact ⟨fun _ => hk, .inl hk⟩
  rcases command_next hc with ⟨-, rfl⟩ | ⟨hf, ⟨r, rfl⟩ | ⟨i, -, -, hk⟩⟩
  · exact ⟨fun _ => ⟨rfl, rfl, rfl, rfl⟩, .inl ⟨rfl, rfl, rfl, rfl⟩⟩
  · refine ⟨fun hfault => ?_, .inr ⟨w, r.cause, r.freg, hw, r.cause_ne_noFault, faultEntry_raise _ r w⟩⟩
    cases hf.symm.trans hfault
  · exact ⟨fun _ => hk, .inl hk⟩

end Sys2Proof.Machine
end

section
/-!
PROOFS of the statements of 20_memory.md. R59: with reset released, an access that lands wholly in the reserved offsets returns 0 or is
ignored.
-/

namespace Sys2Proof.Machine

section

variable {s : State} {off : Fin 64}

theorem whenReleased_released (go : State → Answer) (hr : s.resetHeld = false) : whenReleased s go = go s := by
  simp [whenReleased, hr]

/-- With reset released, a step on a window access is that access's own rule (R62). -/
theorem step_access {e : HostEvent} {rest : List HostEvent} {go : State → Answer} (hr : s.resetHeld = false)
    (hs : s.host = e :: rest) (he : ∀ u, hostEvent e u = whenReleased u go) : step s = go { s with host := rest } :=
  calc step s = hostEvent e { s with host := rest } := nextEvent_cons s e rest hs
    _ = whenReleased { s with host := rest } go := he _
    _ = go { s with host := rest } := whenReleased_released go hr

theorem bytePlace_reserved (hlo : 0x0C ≤ off.val) (hhi : off.val < 0x20) : bytePlace off = some .reserved := by
  rw [bytePlace, dif_neg (Nat.not_le.2 hhi), if_pos hlo]

theorem wordPlace_reserved (hlo : 0x0C ≤ off.val) (hhi : off.val + 4 ≤ 0x20) : wordPlace off = some .reserved := by
  have h0 : off.val ≠ 0x00 := by omega
  have h4 : off.val ≠ 0x04 := by omega
  have h8 : off.val ≠ 0x08 := by omega
  rw [wordPlace, if_neg h0, if_neg h4, if_neg h8, if_pos ⟨hlo, hhi⟩]

theorem hostRead8_reserved (s : State) (hp : bytePlace off = some .reserved) :
    hostRead8 off s = .next (s.returns (.byte 0)) := by
  simp [hostRead8, hp]

theorem hostWrite8_reserved (s : State) (b : Byte) (hp : bytePlace off = some .reserved) : hostWrite8 off b s = .next s := by
  simp [hostWrite8, hp]

theorem hostRead32_reserved (s : State) (hp : wordPlace off = some .reserved) :
    hostRead32 off s = .next (s.returns (.word 0)) := by
  simp [hostRead32, hp]

theorem hostWrite32_reserved (s : State) (w : BitVec 32) (hp : wordPlace off = some .reserved) :
    hostWrite32 off w s = .next s := by
  simp [hostWrite32, hp]

end

/-- Settles O52: a byte from 0x0C to 0x1F is a reserved place, and so is an aligned word there, since it ends below 0x20. -/
theorem reservedOffsets : Obligations.ReservedOffsets := by
  intro s rest off hr hlo hhi
  have hbyte := bytePlace_reserved hlo hhi
  have hword (hal : off.val % 4 = 0) : wordPlace off = some .reserved := wordPlace_reserved hlo (by omega)
  refine ⟨fun hs => ?_, fun b hs => ?_, fun hal hs => ?_, fun w hal hs => ?_⟩
  · exact (step_access hr hs fun _ => rfl).trans (hostRead8_reserved _ hbyte)
  · exact (step_access hr hs fun _ => rfl).trans (hostWrite8_reserved _ b hbyte)
  · exact (step_access hr hs fun _ => rfl).trans (hostRead32_reserved _ (hword hal))
  · exact (step_access hr hs fun _ => rfl).trans (hostWrite32_reserved _ w (hword hal))

end Sys2Proof.Machine
end

section
/-!
PROOFS of the statements of 30_encoding.md. R74, R75: a word lies in a mnemonic's row exactly where its opcode is the mnemonic's, its
reserved field is 0 and the fields the form leaves unused are 0; it then decodes unless it is LDK's with k of 7 or more.
-/

namespace Sys2Proof.Machine

open Sys2Proof.Safety

section

variable {s : State} {w : CmdWord} {o p : Op}

theorem code_injective (h : o.code = p.code) : o = p := by
  simpa using congrArg opOfCode h

/-- Of the commands built from a word only LDK's can be ill-formed, by its k (R73). -/
theorem wellFormed_build_iff : (o.build w).wellFormed = true ↔ (o = .ldk → (raField w).toNat ≤ 6) := by
  cases o
  case ldk =>
    have hk : (Op.ldk.build w).wellFormed = true ↔ (raField w).toNat ≤ 6 := decide_eq_true_iff
    rw [hk, forall_prop_of_true rfl]
  all_goals simp [Op.build, Instr.wellFormed]

/-- A word decodes to a command of a mnemonic exactly where none of R75's conditions holds of it at that mnemonic's opcode. -/
theorem decode_op_iff :
    (∃ i, decode w = .ok i ∧ i.op = o) ↔
      o.code = opField w ∧ zeroField w = 0 ∧ o.form.unusedZero w = true ∧ (o = .ldk → (raField w).toNat ≤ 6) := by
  constructor
  · rintro ⟨i, hd, rfl⟩
    obtain ⟨p, hcode, hzero, hunused, rfl, hwf⟩ := (decode_eq_ok_iff w i).1 hd
    rw [build_op]
    exact ⟨hcode, hzero, hunused, wellFormed_build_iff.1 hwf⟩
  · rintro ⟨hcode, hzero, hunused, hk⟩
    exact ⟨o.build w, (decode_eq_ok_iff w _).2 ⟨o, hcode, hzero, hunused, rfl, wellFormed_build_iff.2 hk⟩, build_op w o⟩

/-- R75: the four conditions that make a word illegal. -/
def IllegalWord (w : CmdWord) : Prop :=
  (∀ o : Op, o.code ≠ opField w) ∨ zeroField w ≠ 0 ∨ (∃ o : Op, o.code = opField w ∧ o.form.unusedZero w = false) ∨
    (opField w = 0x07 ∧ 7 ≤ (raField w).toNat)

/-- A word is legal exactly where it decodes to a command of some mnemonic (R76). -/
theorem not_illegalWord_iff : ¬ IllegalWord w ↔ ∃ i, decode w = .ok i := by
  constructor
  · intro h
    simp only [IllegalWord, not_or, not_forall, not_not, not_exists, not_and, Bool.not_eq_false, Nat.not_le] at h
    obtain ⟨⟨o, hcode⟩, hzero, hunused, hk⟩ := h
    obtain ⟨i, hd, -⟩ := decode_op_iff.2
      ⟨hcode, hzero, hunused o hcode, fun ho => Nat.le_of_lt_succ (hk (by rw [← hcode, ho]; rfl))⟩
    exact ⟨i, hd⟩
  · rintro ⟨i, hd⟩ hill
    obtain ⟨hcode, hzero, hunused, hk⟩ := decode_op_iff.1 ⟨i, hd, rfl⟩
    rcases hill with hno | hres | ⟨p, hp, hbad⟩ | ⟨h7, hge⟩
    · exact hno _ hcode
    · exact hres hzero
    · rw [code_injective (hp.trans hcode.symm), hunused] at hbad
      cases hbad
    · have hldk : i.op = .ldk := code_injective (hcode.trans h7)
      have := hk hldk
      omega

theorem command_illegalWord (hf : s.status.fault = false) (h : IllegalWord w) :
    command w s = .next (s.raise .illegalCmd w) := by
  cases hd : decode w with
  | error e => exact command_illegal w s e hf hd
  | ok i => exact absurd h (not_illegalWord_iff.2 ⟨i, hd⟩)

/-- Every row's mask covers the whole opcode and reserved fields, and its match is the opcode there and 0 (R74). -/
theorem row_opField_zeroField (o : Op) :
    opField o.rowMask = BitVec.allOnes 8 ∧ opField o.rowMatch = o.code ∧
    zeroField o.rowMask = BitVec.allOnes 12 ∧ zeroField o.rowMatch = 0 := by
  cases o <;> decide

/-- Of the operand fields a row's mask covers the unused ones alone, and its match is 0 there (R72, R74). -/
theorem row_operandFields (w : CmdWord) (o : Op) :
    (rdField w &&& rdField o.rowMask = rdField o.rowMatch ∧ raField w &&& raField o.rowMask = raField o.rowMatch ∧
      rbField w &&& rbField o.rowMask = rbField o.rowMatch) ↔ o.form.unusedZero w = true := by
  have hfull (b : BitVec 4) : b &&& 15#4 = b := BitVec.and_allOnes
  cases o <;> simp [Op.rowMask, Op.rowMatch, Op.form, Form.unusedZero, rdField, raField, rbField, hfull]

/-- A word under a row's mask, by the opcode and the fields that must be 0 (R74). -/
theorem and_rowMask_iff :
    w &&& o.rowMask = o.rowMatch ↔ o.code = opField w ∧ zeroField w = 0 ∧ o.form.unusedZero w = true := by
  obtain ⟨hopMask, hopMatch, hzeroMask, hzeroMatch⟩ := row_opField_zeroField o
  rw [and_eq_iff_fields, hopMask, hopMatch, hzeroMask, hzeroMatch, BitVec.and_allOnes, BitVec.and_allOnes,
    ← row_operandFields w o]
  tauto

end

/-- Settles O30: R75's conditions fail together exactly where the word decodes, and what decodes is the encoding of the command. -/
theorem illegalWordsRaise : Obligations.IllegalWordsRaise := by
  intro s w
  refine ⟨command_faulted w s, fun hf => ⟨fun hill => ?_, fun hlegal => ?_⟩⟩
  · exact ⟨_, command_illegalWord hf hill, faultEntry_raise s .illegalCmd w⟩
  · obtain ⟨i, hd⟩ := not_illegalWord_iff.1 hlegal
    exact ⟨i, hd, (decode_op_iff.1 ⟨i, hd, rfl⟩).1, encode_of_decode hd, command_ok w s i hf hd⟩

/-- Settles O31: a row and the decoder ask the same of a word but for LDK's k, and rows of one word share its opcode. -/
theorem opcodeRowsSelect : Obligations.OpcodeRowsSelect := by
  refine ⟨fun w o => ?_, fun w o p ho hp => ?_⟩
  · rw [and_rowMask_iff, decode_op_iff, and_assoc, and_assoc]
  · exact code_injective ((and_rowMask_iff.1 ho).1.trans (and_rowMask_iff.1 hp).1.symm)

end Sys2Proof.Machine
end

section
/-!
PROOFS of the statements of 40_field_arith.md. R110 to R115: each command is a function of its sources written to rd, or fault entry
for the first unwritten source; its word is R70's and its line R77's. R103: none writes STATUS but by fault entry.
-/

namespace Sys2Proof.Machine

open Sys2Proof.Safety

section

variable {i : Instr} {s : State} {r rd ra rb : Reg} {v : Fq} {op : BitVec 8}

theorem writesOnly_of_exec (h : exec i s = .next (s.writeReg rd v)) : WritesOnly i s rd v :=
  ⟨_, h, State.reg_writeReg_self s rd v, keepsRegsBut_writeReg s rd v, rfl, rfl, fun _ => rfl, rfl, rfl, rfl, rfl⟩

theorem faultsOn_of_exec (h : exec i s = .next (s.raise (.uninitReg r) (encode i))) : FaultsOn i s r :=
  ⟨_, h, faultEntry_raise s (.uninitReg r) _⟩

theorem withSources_none_left (w : CmdWord) (k : Fq → Fq → Answer) (ha : s.reg ra = none) :
    withSources w ra rb s k = .next (s.raise (.uninitReg ra) w) :=
  withSource_none w ra s _ ha

theorem withSources_none_right (w : CmdWord) (k : Fq → Fq → Answer) (ha : s.reg ra ≠ none) (hb : s.reg rb = none) :
    withSources w ra rb s k = .next (s.raise (.uninitReg rb) w) := by
  obtain ⟨a, ha⟩ := Option.ne_none_iff_exists'.1 ha
  rw [withSources, withSource_some w ra s _ a ha, withSource_none w rb s _ hb]

/-- Each command's word lies in its own row of the opcode map (R74). -/
theorem encode_inRow (i : Instr) : Laws.OpcodeRow.Statement i := by
  cases i with
  | add rd ra rb => exact Laws.OpcodeRow.add rd ra rb
  | sub rd ra rb => exact Laws.OpcodeRow.sub rd ra rb
  | mul rd ra rb => exact Laws.OpcodeRow.mul rd ra rb
  | sqr rd ra => exact Laws.OpcodeRow.sqr rd ra
  | neg rd ra => exact Laws.OpcodeRow.neg rd ra
  | mov rd ra => exact Laws.OpcodeRow.mov rd ra
  | ldk rd k => exact Laws.OpcodeRow.ldk rd k
  | inv rd ra => exact Laws.OpcodeRow.inv rd ra
  | powq58 rd ra => exact Laws.OpcodeRow.powq58 rd ra
  | sqrt rd ra => exact Laws.OpcodeRow.sqrt rd ra
  | dec rd => exact Laws.OpcodeRow.dec rd
  | enc ra => exact Laws.OpcodeRow.enc ra
  | eq ra rb => exact Laws.OpcodeRow.eq ra rb
  | isneg ra => exact Laws.OpcodeRow.isneg ra

/-- The operands of a command stand in the fields its form takes them from (R72). -/
theorem build_encode (i : Instr) : i.op.build (encode i) = i := by
  cases i <;> simp [Instr.op, Op.build, encode]

/-- A well-formed command's word decodes to it: the word is in the command's row and carries its operands. -/
theorem decode_encode (hwf : WellFormed i) : decode (encode i) = .ok i := by
  obtain ⟨hcode, hzero, hunused⟩ := encode_inRow i
  exact (decode_eq_ok_iff _ _).2 ⟨i.op, hcode.symm, hzero, hunused, (build_encode i).symm, hwf⟩

/-- A well-formed command's line assembles to it (R77). -/
theorem assemble_text (hwf : WellFormed i) : assemble (Op.text i.op) (operandText i) = some i := by
  cases i
  case ldk rd k =>
    have hk : k.val ≤ 6 := of_decide_eq_true hwf
    simp [assemble, operandText, Instr.op, asm2, valueOf_constName k hk]
  all_goals simp [assemble, operandText, Instr.op, asm1, asm2, asm3]

/-- The encoding and the text of a well-formed command, from the fields its word packs. -/
theorem encoding_of_packWord (hwf : WellFormed i)
    (henc : encode i = packWord i.op.code (fieldOf rd) (fieldOf ra) (fieldOf rb)) :
    encode i = shiftWord i.op.code rd ra rb ∧ decode (shiftWord i.op.code rd ra rb) = .ok i ∧
      assemble (Op.text i.op) (operandText i) = some i := by
  have hshift : encode i = shiftWord i.op.code rd ra rb := henc.trans (shiftWord_eq_packWord _ rd ra rb).symm
  exact ⟨hshift, hshift ▸ decode_encode hwf, assemble_text hwf⟩

theorem illegalWhen_of_illegalWord {bad : CmdWord → Prop} (h : ∀ w, opField w = op → bad w → IllegalWord w) :
    IllegalWhen op bad :=
  fun s w hf hop hbad => ⟨_, command_illegalWord hf (h w hop hbad), faultEntry_raise s .illegalCmd w⟩

theorem illegalWhen_reserved (op : BitVec 8) : IllegalWhen op fun w => zeroField w ≠ 0 :=
  illegalWhen_of_illegalWord fun _ _ hzero => .inr (.inl hzero)

/-- Of form RR the rb field is unused (R72, R75). -/
theorem illegalWhen_rr {o : Op} (hform : o.form = .rr) : IllegalWhen o.code fun w => rbField w ≠ 0 ∨ zeroField w ≠ 0 :=
  illegalWhen_of_illegalWord fun w hop hbad => by
    rcases hbad with hrb | hzero
    · have hunused : o.form.unusedZero w = false := by simpa [hform, Form.unusedZero] using hrb
      exact .inr (.inr (.inl ⟨o, hop.symm, hunused⟩))
    · exact .inr (.inl hzero)

end

/-- A command that writes g of its two sources to rd, where g computes f mod q, obeys the three-register rule. -/
theorem threeRegisterRule {name : String} {op : BitVec 8} {mk : Reg → Reg → Reg → Instr} {f : Int → Int → Int}
    (g : Fq → Fq → Fq) (hg : ∀ a b : Fq, ((g a b).val : Int) = f a.val b.val % q)
    (hexec : ∀ s rd ra rb, exec (mk rd ra rb) s =
      withSources (encode (mk rd ra rb)) ra rb s fun a b => .next (s.writeReg rd (g a b)))
    (hword : ∀ rd ra rb, encode (mk rd ra rb) = shiftWord op rd ra rb ∧ decode (shiftWord op rd ra rb) = .ok (mk rd ra rb) ∧
      assemble name [regText rd, regText ra, regText rb] = some (mk rd ra rb)) :
    ThreeRegisterRule name op mk f := by
  refine ⟨fun s rd ra rb a b ha hb => ?_, fun s rd ra rb ha => ?_, fun s rd ra rb ha hb => ?_, hword, illegalWhen_reserved op⟩
  · exact ⟨g a b, hg a b, writesOnly_of_exec ((hexec s rd ra rb).trans (withSources_some _ ra rb s _ a b ha hb))⟩
  · exact faultsOn_of_exec ((hexec s rd ra rb).trans (withSources_none_left _ _ ha))
  · exact faultsOn_of_exec ((hexec s rd ra rb).trans (withSources_none_right _ _ ha hb))

/-- A command of form RR that writes g of its source to rd, where g computes f mod q, obeys the two-register rule. -/
theorem twoRegisterRule {name : String} {o : Op} {mk : Reg → Reg → Instr} {f : Int → Int} (hform : o.form = .rr)
    (g : Fq → Fq) (hg : ∀ a : Fq, ((g a).val : Int) = f a.val % q)
    (hexec : ∀ s rd ra, exec (mk rd ra) s = withSource (encode (mk rd ra)) ra s fun a => .next (s.writeReg rd (g a)))
    (hword : ∀ rd ra, encode (mk rd ra) = shiftWord o.code rd ra 0 ∧ decode (shiftWord o.code rd ra 0) = .ok (mk rd ra) ∧
      assemble name [regText rd, regText ra] = some (mk rd ra)) :
    TwoRegisterRule name o.code mk f := by
  refine ⟨fun s rd ra a ha => ?_, fun s rd ra ha => ?_, hword, illegalWhen_rr hform⟩
  · exact ⟨g a, hg a, writesOnly_of_exec ((hexec s rd ra).trans (withSource_some _ ra s _ a ha))⟩
  · exact faultsOn_of_exec ((hexec s rd ra).trans (withSource_none _ ra s _ ha))

/-- Settles O1: ADD is the three-register rule of addq. -/
theorem addWritesSum : Obligations.AddWritesSum :=
  threeRegisterRule addq (fun _ _ => modq_val _) (fun _ _ _ _ => rfl)
    fun rd ra rb => encoding_of_packWord (i := .add rd ra rb) rfl rfl

/-- Settles O2: SUB is the three-register rule of subq. -/
theorem subWritesDifference : Obligations.SubWritesDifference :=
  threeRegisterRule subq subq_val (fun _ _ _ _ => rfl) fun rd ra rb => encoding_of_packWord (i := .sub rd ra rb) rfl rfl

/-- Settles O3: MUL is the three-register rule of mulq. -/
theorem mulWritesProduct : Obligations.MulWritesProduct :=
  threeRegisterRule mulq (fun _ _ => modq_val _) (fun _ _ _ _ => rfl)
    fun rd ra rb => encoding_of_packWord (i := .mul rd ra rb) rfl rfl

/-- Settles O4: SQR is the two-register rule of mulq a a. -/
theorem sqrWritesSquare : Obligations.SqrWritesSquare :=
  twoRegisterRule (o := .sqr) rfl (fun a => mulq a a) (fun _ => modq_val _) (fun _ _ _ => rfl)
    fun rd ra => encoding_of_packWord (i := .sqr rd ra) (rb := 0) rfl rfl

/-- Settles O5: NEG is the two-register rule of the residue of 0 - a. -/
theorem negWritesNegation : Obligations.NegWritesNegation :=
  twoRegisterRule (o := .neg) rfl (fun a => modq (0 - toInt a)) (fun _ => modq_val _) (fun _ _ _ => rfl)
    fun rd ra => encoding_of_packWord (i := .neg rd ra) (rb := 0) rfl rfl

/-- Settles O6: MOV is the two-register rule of the identity, since a register's value is its own residue. -/
theorem movCopiesRegister : Obligations.MovCopiesRegister := by
  have hval (a : Fq) : (a.val : Int) = a.val % q := by
    have h := modq_val (toInt a)
    rwa [modq_toInt] at h
  exact twoRegisterRule (o := .mov) rfl (fun a => a) hval (fun _ _ _ => rfl)
    fun rd ra => encoding_of_packWord (i := .mov rd ra) (rb := 0) rfl rfl

/-- Settles O22: of the updates of exec_next the arithmetic commands make fault entry, never with UNINIT_BUF, and the write of rd. -/
theorem arithmeticFrame : Obligations.ArithmeticFrame := by
  intro i s t hop h
  rcases exec_next i s t h with ⟨r, hr, rfl⟩ | ⟨-, rd, v, hd, rfl⟩ | ⟨rd, ra, rfl, -⟩ | ⟨rd, b, v, rfl, -⟩ |
    ⟨ra, bs, rfl, -⟩ | ⟨⟨ra, rb, rfl⟩ | ⟨ra, rfl⟩, -⟩
  · refine .inl ⟨r.freg, r.cause, ?_, faultEntry_raise s r _⟩
    cases r with
    | illegalCmd => exact .inl rfl
    | uninitReg _ => exact .inr rfl
    | uninitBuf =>
      obtain ⟨hdec, -⟩ := hr
      simp [hdec] at hop
  · exact .inr ⟨rfl, rfl, fun _ => rfl, ⟨rfl, rfl, rfl, rfl⟩,
      fun r hne => keepsRegsBut_writeReg s rd v r fun e => hne (e ▸ hd)⟩
  all_goals simp [Instr.op] at hop

end Sys2Proof.Machine
end

section
/-!
PROOFS of the statements of 41_exponentiation.md. R140: INV is a function of its source written to rd, the source's power q - 2 reduced
mod q; the power of 0 is 0, so no source but an unwritten one faults.
-/

namespace Sys2Proof.Machine

/-- The power function reduces the integer power, for the exponents its 256 rounds cover (R141). -/
theorem powq_val_int (a : Fq) {e : Nat} (he : e < 2 ^ 256) : ((powq a e).val : Int) = (a.val : Int) ^ e % q := by
  rw [powq_val a e he, Int.natCast_mod, Int.natCast_pow]

/-- Settles O8: INV is the two-register rule of the power q - 2. -/
theorem invWritesPower : Obligations.InvWritesPower :=
  twoRegisterRule (o := .inv) rfl (fun a => powq a invExponent) (fun a => powq_val_int a invExponent_lt) (fun _ _ _ => rfl)
    fun rd ra => encoding_of_packWord (i := .inv rd ra) (rb := 0) rfl rfl

end Sys2Proof.Machine
end

section
/-!
PROOFS of the statements of 42_predicates.md. R171: ISNEG's one update is RES, the parity of its source's canonical value.
-/

namespace Sys2Proof.Machine

open Sys2Proof.Safety

theorem negativeFlag_eq_odd (a : Fq) : negativeFlag a = decide (a.val % 2 = 1) :=
  Nat.testBit_zero a.val

/-- A word of a mnemonic's opcode is illegal where a field the form leaves unused, or the reserved field, is not 0 (R75). -/
theorem illegalWhen_unused (o : Op) :
    IllegalWhen o.code fun w => o.form.unusedZero w = false ∨ zeroField w ≠ 0 :=
  illegalWhen_of_illegalWord fun w hop hbad => by
    rcases hbad with hunused | hzero
    · exact .inr (.inr (.inl ⟨o, hop.symm, hunused⟩))
    · exact .inr (.inl hzero)

/-- Of form RS the rd and rb fields are unused (R72, R75). -/
theorem illegalWhen_rs {o : Op} (hform : o.form = .rs) :
    IllegalWhen o.code fun w => rdField w ≠ 0 ∨ rbField w ≠ 0 ∨ zeroField w ≠ 0 := by
  intro s w hf hop hbad
  have hunused : o.form.unusedZero w = false ↔ rdField w ≠ 0 ∨ rbField w ≠ 0 := by
    simp [hform, Form.unusedZero, imp_iff_not_or]
  exact illegalWhen_unused o s w hf hop ((or_assoc.2 hbad).imp_left hunused.2)

theorem exec_isneg_written {s : State} {ra : Reg} {a : Fq} (ha : s.reg ra = some a) :
    exec (.isneg ra) s = .next (s.setRes (decide (a.val % 2 = 1))) := by
  rw [← negativeFlag_eq_odd]
  exact withSource_some _ ra s _ a ha

theorem exec_isneg_unwritten {s : State} {ra : Reg} (ha : s.reg ra = none) :
    exec (.isneg ra) s = .next (s.raise (.uninitReg ra) (encode (.isneg ra))) :=
  withSource_none _ ra s _ ha

/-- Settles O17: by the two answers of ISNEG, of which the one with a written source is the write of RES alone. -/
theorem isnegReportsParity : Obligations.IsnegReportsParity := by
  refine ⟨fun s ra a ha => ?_, fun s ra ha => ?_, fun ra => ?_, ?_⟩
  · exact ⟨_, exec_isneg_written ha, rfl, fun _ => rfl, rfl, fun _ => rfl, rfl, rfl, rfl, rfl⟩
  · exact faultsOn_of_exec (exec_isneg_unwritten ha)
  · exact encoding_of_packWord (i := .isneg ra) (rd := 0) (rb := 0) rfl rfl
  · exact illegalWhen_rs (o := .isneg) rfl

end Sys2Proof.Machine
end

section
/-!
PROOFS of the statements of 43_byte_codec.md. R180: DEC parts the buffer's value into its bit 255 and the 255 bits below it.
R182: ENC's bytes are those of a value below q, and so below 2^255.
-/

namespace Sys2Proof.Machine

open Sys2Proof.Safety

section

variable {s : State} {rd ra : Reg}

/-- The buffer's value is the 31 lower bytes, below 2^248, and the top byte above them. -/
theorem bufferValue_split (B : Nat → Byte) : ∃ low < 2 ^ 248, bufferValue B = 2 ^ 248 * (B 31).toNat + low := by
  refine ⟨leValue ((List.range 31).map B), ?_, ?_⟩
  · simpa using leValue_lt ((List.range 31).map B)
  · rw [bufferValue, Finset.sum_range_succ, ← leValue_map_range]
    ring

/-- Bit 255 of the buffer's value is bit 7 of its top byte (R180). -/
theorem signFlag_bufferValue (B : Nat → Byte) : signFlag (bufferValue B) = (B 31).getLsbD 7 := by
  obtain ⟨low, hlow, hsplit⟩ := bufferValue_split B
  rw [signFlag, hsplit, Nat.testBit_two_pow_mul_add _ hlow]
  rfl

/-- A write of BUF bytes leaves everything else as it was. -/
theorem writeBufBytes_frame (s : State) (a : Nat) (bs : List Byte) :
    KeepsRegs s (s.writeBufBytes a bs) ∧ (s.writeBufBytes a bs).status = s.status ∧
      (s.writeBufBytes a bs).fcmd = s.fcmd ∧ KeepsOwn s (s.writeBufBytes a bs) :=
  ⟨fun _ => rfl, rfl, rfl, rfl, rfl, rfl, rfl⟩

/-- The top byte of a canonical value has its bit 7 clear, since q < 2^255 (R182). -/
theorem topByte_getLsbD_seven (a : Fq) : (BitVec.ofNat 8 (a.val / 256 ^ 31)).getLsbD 7 = false := by
  have ha : a.val < 256 ^ 31 * 2 ^ 7 := a.isLt.trans q_lt
  rw [BitVec.getLsbD_ofNat, Nat.testBit_lt_two_pow (Nat.div_lt_of_lt_mul ha), Bool.and_false]

/-- Of form RD the ra and rb fields are unused (R72, R75). -/
theorem illegalWhen_rd {o : Op} (hform : o.form = .rd) :
    IllegalWhen o.code fun w => raField w ≠ 0 ∨ rbField w ≠ 0 ∨ zeroField w ≠ 0 := by
  intro s w hf hop hbad
  have hunused : o.form.unusedZero w = false ↔ raField w ≠ 0 ∨ rbField w ≠ 0 := by
    simp [hform, Form.unusedZero, imp_iff_not_or]
  exact illegalWhen_unused o s w hf hop ((or_assoc.2 hbad).imp_left hunused.2)

theorem exec_dec_written {B : Nat → Byte} (hB : BufferHolds s B) :
    exec (.dec rd) s =
      .next ((s.setSign ((B 31).getLsbD 7)).writeReg rd (modq ((bufferValue B % 2 ^ 255 : Nat) : Int))) := by
  rw [← signFlag_bufferValue, ← leValue_buffer]
  exact withBuffer_some _ s _ B hB

theorem exec_dec_unwritten {i : Nat} (hi : i < 32) (hn : s.buf.read i = none) :
    exec (.dec rd) s = .next (s.raise .uninitBuf (encode (.dec rd))) :=
  withBuffer_none _ s _ i hi hn

theorem exec_enc_written {a : Fq} (ha : s.reg ra = some a) :
    exec (.enc ra) s = .next (s.writeBufBytes 0 (leBytes 32 a.val)) :=
  withSource_some _ ra s _ a ha

theorem exec_enc_unwritten (ha : s.reg ra = none) :
    exec (.enc ra) s = .next (s.raise (.uninitReg ra) (encode (.enc ra))) :=
  withSource_none _ ra s _ ha

end

/-- Settles O14: by the two answers of DEC, of which the one with all 32 bytes written sets SIGN and rd alone. -/
theorem decReadsBuffer : Obligations.DecReadsBuffer := by
  refine ⟨fun s rd B hB => ?_, fun s rd i hi hn => ?_, fun rd => ?_, ?_⟩
  · refine ⟨_, exec_dec_written hB, ?_, rfl, keepsRegsBut_writeReg (s.setSign _) rd _, rfl, fun _ => rfl, rfl, rfl, rfl, rfl⟩
    rw [State.reg_writeReg_self, Option.map_some, modq_val_nat]
  · exact ⟨_, exec_dec_unwritten hi hn, faultEntry_raise s .uninitBuf _⟩
  · exact encoding_of_packWord (i := .dec rd) (ra := 0) (rb := 0) rfl rfl
  · exact illegalWhen_rd (o := .dec) rfl

/-- Settles O15: by the two answers of ENC, of which the one with a written source is the write of the value's 32 bytes. -/
theorem encWritesCanonicalBytes : Obligations.EncWritesCanonicalBytes := by
  refine ⟨fun s ra a ha => ?_, fun s ra ha => ?_, fun ra => ?_, ?_⟩
  · refine ⟨_, exec_enc_written ha, fun i hi => ?_, fun i hi => ?_, ?_, writeBufBytes_frame s 0 _⟩
    · rw [State.read_encoded s a.val i hi, Option.map_some, BitVec.toNat_ofNat]
    · exact State.read_writeBufBytes_ge s _ i (leBytes_length 32 a.val) hi
    · rw [State.read_encoded s a.val 31 (by decide), Option.map_some, topByte_getLsbD_seven]
  · exact faultsOn_of_exec (exec_enc_unwritten ha)
  · exact encoding_of_packWord (i := .enc ra) (rd := 0) (rb := 0) rfl rfl
  · exact illegalWhen_rs (o := .enc) rfl

end Sys2Proof.Machine
end

section
/-!
PROOFS of the statements of 60_exceptions.md. R205: SQRT's answer squares to its source, so a source that is no square has none.
R208: with FAULT = 1 the window's accesses keep their own rules, and CMD's is to ignore the word. R202, R204, R206: a command
answers fault entry for its first unwritten source, else for an unwritten byte DEC reads, else it performs its update.
-/

namespace Sys2Proof.Machine

open Sys2Proof.Safety

section

variable {i : Instr} {s t : State} {rd ra rb r : Reg} {w : CmdWord} {a : Fq}

/-- Modulo n the product of -m and -1 is m. -/
theorem sub_mul_pred_mod {m n : Nat} (h : m < n) : (n - m) * (n - 1) % n = m := by
  obtain ⟨c, rfl⟩ := Nat.exists_eq_add_of_lt h
  have hprod : (m + c + 1 - m) * (m + c + 1 - 1) = m + (m + c + 1) * c := by
    rw [Nat.add_sub_cancel, Nat.add_assoc, Nat.add_sub_cancel_left]
    ring
  rw [hprod, Nat.add_mul_mod_self_left, Nat.mod_eq_of_lt h]

/-- The root SQRT answers squares to its source: SQRTM1 turns a candidate whose square is -a into a root of a (R144). -/
theorem squareRoot_sq {b : Fq} (h : squareRoot a = some b) : b.val * b.val % q = a.val := by
  obtain ⟨hsq, hroot⟩ | ⟨-, hneg, hroot⟩ | ⟨-, -, hroot⟩ := squareRoot_cases a <;> cases h.symm.trans hroot
  · exact hsq
  · calc (mulq (rootCandidate a) sqrtm1).val * (mulq (rootCandidate a) sqrtm1).val % q
        = (rootCandidate a).val * (rootCandidate a).val * (sqrtm1.val * sqrtm1.val) % q := by
          rw [mulq_val, ← Nat.mul_mod, mul_mul_mul_comm]
      _ = (q - a.val) * (q - 1) % q := by rw [Nat.mul_mod, hneg, sqrtm1_sq, Nat.mod_mul_mod]
      _ = a.val := sub_mul_pred_mod a.isLt

theorem squareRoot_eq_none (h : ∀ n : Nat, n * n % q ≠ a.val) : squareRoot a = none :=
  Option.eq_none_iff_forall_ne_some.2 fun b hb => h b.val (squareRoot_sq hb)

theorem exec_sqrt_noroot (ha : s.reg ra = some a) (hroot : squareRoot a = none) :
    exec (.sqrt rd ra) s = .next ((s.clearReg rd).setNoroot true) := by
  refine (withSource_some _ ra s _ a ha).trans ?_
  simp only [hroot]

end

/-- Settles O11: a source that is no square has no answered root, and SQRT then clears rd and sets NOROOT. -/
theorem sqrtMissingRootIsStatus : Obligations.SqrtMissingRootIsStatus := by
  intro s rd ra a ha hno
  exact ⟨_, exec_sqrt_noroot ha (squareRoot_eq_none hno), rfl, rfl, State.reg_clearReg_self s rd,
    keepsRegsBut_clearReg s rd, fun _ => rfl, rfl, rfl, rfl, rfl⟩

section

variable {s : State} {off : Fin 64} {i : Fin 32}

theorem bytePlace_buf (hoff : off.val = 32 + i.val) : bytePlace off = some (.buf i) := by
  have hi : off.val - 0x20 = i.val := by omega
  rw [bytePlace, dif_pos (by omega)]
  simp only [hi]

theorem hostRead8_buf (s : State) (hoff : off.val = 32 + i.val) : hostRead8 off s = .next (readBuf i s) := by
  simp [hostRead8, bytePlace_buf hoff]

theorem hostWrite8_buf (s : State) (b : Byte) (hoff : off.val = 32 + i.val) :
    hostWrite8 off b s = .next (s.writeBuf i.val b) := by
  simp [hostWrite8, bytePlace_buf hoff]

theorem hostRead8_written {b : Byte} (hoff : off.val = 32 + i.val) (hb : s.buf.read i = some b) :
    hostRead8 off s = .next (s.returns (.byte b)) := by
  simp [hostRead8_buf s hoff, readBuf, hb]

/-- An unwritten BUF byte reads as the next free draw (R60). -/
theorem hostRead8_unwritten (hoff : off.val = 32 + i.val) (hb : s.buf.read i = none) :
    hostRead8 off s = .next { s.returns (.byte (Config.freeByte s.draws)) with draws := s.draws + 1 } := by
  simp [hostRead8_buf s hoff, readBuf, hb]

end

/-- Settles O29: each access is its place's own rule, of which CMD's ignores the word while FAULT = 1; and by O28 no other step
than an assertion of reset clears FAULT. -/
theorem faultedUnitIgnoresCommands : Obligations.FaultedUnitIgnoresCommands := by
  intro s rest hf hr
  refine ⟨fun w hs => ?cmd, fun hs => ?status, fun hs => ?fcmd, fun i off b hoff hb hs => ?readWritten,
    fun i off hoff hb hs => ?readUnwritten, fun i off b hoff hs => ?write, fun hs => ?reset, fun t h ht => ?onlyReset⟩
  case cmd => exact (step_access hr hs fun _ => rfl).trans (command_faulted w { s with host := rest } hf)
  case status => exact step_access hr hs fun _ => rfl
  case fcmd => exact step_access hr hs fun _ => rfl
  case readWritten =>
    exact (step_access hr hs fun _ => rfl).trans (hostRead8_written (s := { s with host := rest }) hoff hb)
  case readUnwritten =>
    exact ⟨_, _, (step_access hr hs fun _ => rfl).trans (hostRead8_unwritten (s := { s with host := rest }) hoff hb),
      rfl, rfl, rfl, rfl, fun _ => rfl⟩
  case write =>
    refine ⟨_, (step_access hr hs fun _ => rfl).trans (hostWrite8_buf _ b hoff), ?_, fun a ha => ?_, rfl, rfl, fun _ => rfl⟩
    · exact Memory.read_write_self s.buf i.val b
    · exact Memory.read_write_ne s.buf i.val a b ha
  case reset => exact ⟨_, nextEvent_cons s _ rest hs, rfl⟩
  case onlyReset =>
    by_contra hne
    obtain ⟨hkeep, -⟩ := faultRecordWriters s t h hne
    obtain ⟨hfault, -, -, -⟩ := hkeep hf
    cases ht.symm.trans (hfault.trans hf)

section

variable {i : Instr} {s t : State} {rd ra rb r : Reg} {w : CmdWord}

/-- The shapes a command's rule can have, by the register sources it reads first; whatever their values, it then answers a next
state (R72, R202, R237). -/
theorem exec_shape (i : Instr) (s : State) :
    (∃ ra k, i.sources = [ra] ∧ exec i s = withSource (encode i) ra s k ∧ ∀ a, ∃ t, k a = .next t) ∨
    (∃ ra rb k, i.sources = [ra, rb] ∧ exec i s = withSources (encode i) ra rb s k ∧ ∀ a b, ∃ t, k a b = .next t) ∨
    (i.sources = [] ∧ ∃ t, exec i s = .next t) := by
  cases i with
  | add rd ra rb | sub rd ra rb | mul rd ra rb | eq ra rb =>
    exact .inr (.inl ⟨ra, rb, _, rfl, rfl, fun _ _ => ⟨_, rfl⟩⟩)
  | sqr rd ra | neg rd ra | mov rd ra | inv rd ra | powq58 rd ra | enc ra | isneg ra =>
    exact .inl ⟨ra, _, rfl, rfl, fun _ => ⟨_, rfl⟩⟩
  | sqrt rd ra =>
    refine .inl ⟨ra, _, rfl, rfl, fun a => ?_⟩
    cases squareRoot a <;> exact ⟨_, rfl⟩
  | ldk rd k =>
    refine .inr (.inr ⟨rfl, ?_⟩)
    simp only [exec, execLdk, withConstant]
    cases constant k <;> exact ⟨_, rfl⟩
  | dec rd =>
    refine .inr (.inr ⟨rfl, ?_⟩)
    simp only [exec, execDec, withBuffer]
    cases s.buf.readBytes 0 32 <;> exact ⟨_, rfl⟩

theorem withSource_completes {k : Fq → Answer} (hk : ∀ a, ∃ t, k a = .next t) : ∃ t, withSource w ra s k = .next t := by
  cases ha : s.reg ra with
  | none => exact ⟨_, withSource_none w ra s k ha⟩
  | some a => exact withSource_some w ra s k a ha ▸ hk a

/-- Every command answers a next state, from every state (R237). -/
theorem exec_completes (i : Instr) (s : State) : ∃ t, exec i s = .next t := by
  obtain ⟨ra, k, -, hx, hk⟩ | ⟨ra, rb, k, -, hx, hk⟩ | ⟨-, hx⟩ := exec_shape i s
  · exact hx ▸ withSource_completes hk
  · exact hx ▸ withSource_completes fun a => withSource_completes (hk a)
  · exact hx

/-- A command with an unwritten source raises UNINIT_REG for the first one, in the order it reads them (R202). -/
theorem exec_unwritten_source (h : (i.sources.find? fun r => (s.reg r).isNone) = some r) :
    exec i s = .next (s.raise (.uninitReg r) (encode i)) := by
  obtain ⟨ra, k, hsrc, hx, -⟩ | ⟨ra, rb, k, hsrc, hx, -⟩ | ⟨hsrc, -⟩ := exec_shape i s
  · obtain ⟨ha, rfl⟩ : s.reg ra = none ∧ ra = r := by simpa [hsrc] using h
    exact hx.trans (withSource_none _ ra s k ha)
  · rw [hsrc] at h
    cases ha : s.reg ra with
    | none =>
      obtain rfl : ra = r := by simpa [ha] using h
      exact hx.trans (withSources_none_left _ k ha)
    | some a =>
      obtain ⟨hb, rfl⟩ : s.reg rb = none ∧ rb = r := by simpa [ha] using h
      exact hx.trans (withSources_none_right _ k (by simp [ha]) hb)
  · simp [hsrc] at h

/-- A command none of whose causes applies keeps the fault record (R203). -/
theorem exec_keepsFaultRecord (hcause : ∀ r, ¬ CanRaise i s r) (h : exec i s = .next t) : KeepsFaultRecord s t := by
  rcases exec_next i s t h with ⟨r, hr, -⟩ | ⟨-, rd, v, -, rfl⟩ | ⟨rd, ra, -, ⟨v, rfl⟩ | rfl⟩ | ⟨rd, b, v, -, rfl⟩ |
    ⟨ra, bs, -, -, rfl⟩ | ⟨-, b, rfl⟩
  · exact absurd hr (hcause r)
  all_goals exact ⟨rfl, rfl, rfl, rfl⟩

/-- With every source written a well-formed command raises UNINIT_BUF where it is DEC and a byte is unwritten (R204), and else
nothing. -/
theorem exec_sources_written (hwf : WellFormed i) (hsrc : ∀ r ∈ i.sources, s.reg r ≠ none) :
    ∃ t, exec i s = .next t ∧
      ((i.op = .dec ∧ (∃ a, a < 32 ∧ s.buf.read a = none) ∧ FaultEntry s t .uninitBuf 0 (encode i)) ∨
        ((i.op = .dec → ∀ a, a < 32 → s.buf.read a ≠ none) ∧ KeepsFaultRecord s t)) := by
  obtain ⟨t, h⟩ := exec_completes i s
  refine ⟨t, h, ?_⟩
  by_cases hbuf : i.op = .dec ∧ ∃ a, a < 32 ∧ s.buf.read a = none
  · obtain ⟨hop, a, ha, hn⟩ := hbuf
    refine .inl ⟨hop, ⟨a, ha, hn⟩, ?_⟩
    cases i <;> cases hop
    cases (exec_dec_unwritten ha hn).symm.trans h
    exact faultEntry_raise s .uninitBuf _
  · refine .inr ⟨fun hop a ha hn => hbuf ⟨hop, a, ha, hn⟩, exec_keepsFaultRecord (fun r hr => ?_) h⟩
    cases r with
    | illegalCmd =>
      obtain ⟨-, hbad⟩ := hr
      cases hbad.symm.trans hwf
    | uninitReg r =>
      obtain ⟨hmem, hn⟩ := hr
      exact hsrc r hmem hn
    | uninitBuf => exact hbuf hr

end

/-- Settles O38: a command that decodes raises UNINIT_REG for its first unwritten source; with every source written, the one cause
left to it is DEC's unwritten byte. -/
theorem faultPriority : Obligations.FaultPriority := by
  intro s w
  cases hf : s.status.fault with
  | true => exact ⟨s, command_faulted w s hf, rfl⟩
  | false =>
    cases hd : decode w with
    | error e => exact ⟨_, command_illegal w s e hf hd, faultEntry_raise s .illegalCmd w⟩
    | ok i =>
      obtain rfl := encode_of_decode hd
      rw [command_ok _ s i hf hd]
      simp only [Bool.false_eq_true, if_false]
      cases hfirst : i.sources.find? fun r => (s.reg r).isNone with
      | some r => exact ⟨_, exec_unwritten_source hfirst, faultEntry_raise s (.uninitReg r) _⟩
      | none =>
        obtain ⟨-, -, -, -, -, hwf⟩ := (decode_eq_ok_iff _ i).1 hd
        exact exec_sources_written hwf fun r hr => by simpa using List.find?_eq_none.1 hfirst r hr

end Sys2Proof.Machine
end

section
/-!
PROOFS of the statements of 70_reset_and_hazards.md. R230: asserting reset gives every piece of state its reset value, and every other
step keeps a fault record that stands.
-/

namespace Sys2Proof.Machine

open Sys2Proof.Safety

theorem Status.word_reset : Status.reset.word = 0 := by decide

theorem atReset_assertReset (s : State) : AtReset s.assertReset :=
  ⟨State.reg_assertReset s, Status.word_reset, rfl, rfl, Memory.read_nil⟩

/-- The assertion of reset is a step from every state, faulted or reset held (R230). -/
theorem step_assertReset {s : State} {rest : List HostEvent} (hs : s.host = .resetLine true :: rest) :
    step s = .next { s with host := rest }.assertReset :=
  nextEvent_cons s _ rest hs

/-- Settles O43: an assertion of reset answers assertReset, and by O28 any other step with FAULT = 1 keeps FAULT. -/
theorem resetRestoresState : Obligations.ResetRestoresState := by
  refine ⟨fun s rest hs => ⟨_, step_assertReset hs, atReset_assertReset _, rfl⟩, fun s t h hfault hclear => ?_⟩
  by_contra hr
  obtain ⟨hkeeps, -⟩ := faultRecordWriters s t h hr
  obtain ⟨hsame, -⟩ := hkeeps hfault
  simp [hsame, hfault] at hclear

end Sys2Proof.Machine
end

section
/-!
PROOFS of the encoding's round trips. R70 to R77: decoding, encoding and the assembler's line are inverse to each other on the
well-formed commands, and a write of a word that decodes performs its command.
-/

namespace Sys2Proof.Machine

/-- Settles O32: a command's word is in its row and carries its operands. -/
theorem decodeOfEncode : Obligations.DecodeOfEncode := fun _ hwf => decode_encode hwf

/-- Settles O33: a word is the pack of its fields, of which those the form leaves unused and the reserved one are 0. -/
theorem encodeOfDecode : Obligations.EncodeOfDecode := by
  intro w i hd
  obtain ⟨-, -, -, -, -, hwf⟩ := (decode_eq_ok_iff w i).1 hd
  exact ⟨encode_of_decode hd, hwf⟩

/-- Settles O35: each name reads back as what it names. -/
theorem assembleOfText : Obligations.AssembleOfText := fun _ hwf => assemble_text hwf

/-- Settles O34: each word is the encoding of the well-formed command beside it, and so decodes to it. -/
theorem sampleWordsDecode : Obligations.SampleWordsDecode :=
  ⟨decode_encode (i := .add 1 2 3) rfl, decode_encode (i := .inv 4 5) rfl, decode_encode (i := .ldk 0 1) rfl,
    decode_encode (i := .dec 7) rfl, decode_encode (i := .enc 7) rfl, decode_encode (i := .eq 1 2) rfl⟩

/-- Settles O36: the write to CMD is a command step, and with FAULT = 0 it performs what its word decodes to. -/
theorem stepRunsDecodedCommand : Obligations.StepRunsDecodedCommand := by
  intro s w rest i hr hf hs hd
  exact (step_access hr hs fun _ => rfl).trans (command_ok w { s with host := rest } i hf hd)

/-- Settles O37: O38 names the next state every command step answers. -/
theorem everyCommandCompletes : Obligations.EveryCommandCompletes := by
  intro w s
  obtain ⟨t, h, -⟩ := faultPriority s w
  exact ⟨t, h⟩

end Sys2Proof.Machine
end

section
/-!
PROOFS of what every command and every step keep. R26, R58, R62, R203: a command's updates are those of exec_next, so what it leaves
alone, what its fault record says and which events change a register or a BUF byte follow from the cases of a step.
-/

namespace Sys2Proof.Machine

open Sys2Proof.Safety

section

variable {i : Instr} {e : HostEvent} {s t : State} {w : CmdWord}

/-- The model's own fields are no part of a command's rule (logs 1, 2, 4, 5). -/
theorem exec_keepsOwn (h : exec i s = .next t) : KeepsOwn s t := by
  rcases exec_next i s t h with ⟨r, -, rfl⟩ | ⟨-, rd, v, -, rfl⟩ | ⟨rd, ra, -, ⟨v, rfl⟩ | rfl⟩ | ⟨rd, b, v, -, rfl⟩ |
    ⟨ra, bs, -, -, rfl⟩ | ⟨-, b, rfl⟩
  all_goals exact ⟨rfl, rfl, rfl, rfl⟩

/-- A command stores nothing in BUF, or it is ENC and stores 32 bytes from offset 0 on (R182). -/
theorem exec_buf (h : exec i s = .next t) :
    t.buf = s.buf ∨ ∃ ra bs, i = .enc ra ∧ bs.length = 32 ∧ t.buf = s.buf.writeBytes 0 bs := by
  rcases exec_next i s t h with ⟨r, -, rfl⟩ | ⟨-, rd, v, -, rfl⟩ | ⟨rd, ra, -, ⟨v, rfl⟩ | rfl⟩ | ⟨rd, b, v, -, rfl⟩ |
    ⟨ra, bs, hi, hlen, rfl⟩ | ⟨-, b, rfl⟩
  case inr.inr.inr.inr.inl => exact .inr ⟨ra, bs, hi, hlen, rfl⟩
  all_goals exact .inl rfl

/-- No register but a command's destination changes, whether the command faults or not (R26). -/
theorem exec_keepsRegs_but_dest (h : exec i s = .next t) (r : Reg) (hr : i.dest ≠ some r) : t.reg r = s.reg r := by
  rcases registerWriters i s t h with ⟨hregs, -⟩ | ⟨-, hregs, -⟩
  · exact hregs r
  · exact hregs r hr

theorem exec_wf (h : exec i s = .next t) (hwf : s.buf.wf = true) : t.buf.wf = true := by
  obtain hbuf | ⟨ra, bs, -, hlen, hbuf⟩ := exec_buf h
  · rwa [hbuf]
  · rw [hbuf]
    exact Memory.wf_writeBytes bs s.buf 0 hwf (by omega)

theorem command_keepsOwn (h : command w s = .next t) : KeepsOwn s t := by
  rcases command_next h with ⟨-, rfl⟩ | ⟨-, ⟨r, rfl⟩ | ⟨i, -, hx, -⟩⟩
  · exact ⟨rfl, rfl, rfl, rfl⟩
  · exact ⟨rfl, rfl, rfl, rfl⟩
  · exact exec_keepsOwn hx

theorem command_wf (h : command w s = .next t) (hwf : s.buf.wf = true) : t.buf.wf = true := by
  rcases command_next h with ⟨-, rfl⟩ | ⟨-, ⟨r, rfl⟩ | ⟨i, -, hx, -⟩⟩
  · exact hwf
  · exact hwf
  · exact exec_wf hx hwf

/-- Taking an event leaves the events after it to come (R62). -/
theorem hostEvent_host (h : hostEvent e s = .next t) : t.host = s.host := by
  rcases hostEvent_next e s t h with ⟨-, rfl⟩ | ⟨-, rfl⟩ |
    ⟨-, ⟨off, -, ⟨d, rfl⟩ | ⟨b, rfl⟩⟩ | ⟨rfl, -⟩ | ⟨off, i, b, -, -, rfl⟩ | ⟨w, -, hc⟩⟩
  case inr.inr.inr.inr.inr =>
    obtain ⟨hhost, -⟩ := command_keepsOwn hc
    exact hhost
  all_goals rfl

/-- A step that is no assertion of reset leaves BUF as it is, but for an 8-bit write of one of its bytes and a command step on a
write to CMD (R58). -/
theorem step_buf (h : step s = .next t) (hr : s.host.head? ≠ some (.resetLine true)) :
    t.buf = s.buf ∨
    (∃ (off : Fin 64) (i : Fin 32) (b : Byte), s.host.head? = some (.write8 off b) ∧ off.val = 32 + i.val ∧
      t.buf = s.buf.write i.val b) ∨
    ∃ w, s.host.head? = some (.write32 0 w) ∧ command w { s with host := s.host.tail } = .next t := by
  cases hs : s.host with
  | nil =>
    cases (step_idle s hs).symm.trans h
    exact .inl rfl
  | cons e rest =>
    rcases hostEvent_next e _ t ((nextEvent_cons s e rest hs).symm.trans h) with ⟨rfl, -⟩ | ⟨-, rfl⟩ |
      ⟨-, ⟨off, -, ⟨d, rfl⟩ | ⟨b, rfl⟩⟩ | ⟨rfl, -⟩ | ⟨off, i, b, rfl, hoff, rfl⟩ | ⟨w, rfl, hc⟩⟩
    case inl => exact absurd (by simp [hs]) hr
    case inr.inr.inr.inr.inl => exact .inr (.inl ⟨off, i, b, rfl, hoff, rfl⟩)
    case inr.inr.inr.inr.inr => exact .inr (.inr ⟨w, rfl, hc⟩)
    all_goals exact .inl rfl

/-- The invariant's second clause speaks of the fault record alone. -/
theorem faultRecordSound_of_keeps (hk : KeepsFaultRecord s t) (hs : FaultRecordSound s) : FaultRecordSound t := by
  obtain ⟨hfault, hfcause, hfreg, hfcmd⟩ := hk
  simpa only [FaultRecordSound, hfault, hfcause, hfreg, hfcmd] using hs

/-- A command step records only a cause its word can raise, and for UNINIT_REG one of the word's sources: the cases of O38
(R200 to R204). -/
theorem command_faultRecordSound (h : command w s = .next t) (hs : FaultRecordSound s) : FaultRecordSound t := by
  obtain ⟨t', h', hcase⟩ := faultPriority s w
  cases h'.symm.trans h
  cases hf : s.status.fault with
  | true =>
    obtain rfl : t = s := by simpa [hf] using hcase
    exact hs
  | false =>
    simp only [hf, Bool.false_eq_true, if_false] at hcase
    cases hd : decode w with
    | error e =>
      simp only [hd] at hcase
      cases hcase
      exact ⟨rfl, e, hd⟩
    | ok i =>
      simp only [hd] at hcase
      cases hfirst : i.sources.find? fun r => (s.reg r).isNone with
      | some r =>
        simp only [hfirst] at hcase
        cases hcase
        exact ⟨i, hd, List.mem_of_find?_eq_some hfirst⟩
      | none =>
        simp only [hfirst] at hcase
        obtain ⟨hop, -, hentry⟩ | ⟨-, hk⟩ := hcase
        · cases hentry
          cases i <;> cases hop
          exact ⟨rfl, _, hd⟩
        · exact faultRecordSound_of_keeps hk hs

theorem inv_of_atReset (ha : AtReset s) (hbuf : s.buf = []) : Inv s := by
  have ⟨_, _, hstatus, hfcmd, _⟩ := ha
  refine ⟨by rw [hbuf]; rfl, ?_, fun _ => ha⟩
  simp [FaultRecordSound, hstatus, hfcmd, Status.reset]

/-- With reset released the invariant's last clause asks nothing. -/
theorem inv_of_released (hr : t.resetHeld = false) (hwf : t.buf.wf = true) (hs : FaultRecordSound t) : Inv t :=
  ⟨hwf, hs, fun hheld => by simp [hr] at hheld⟩

/-- Every event keeps the invariant: of the updates of hostEvent_next the assertion of reset makes it hold, and every other one but its
release is made with reset released (R230). -/
theorem hostEvent_inv (h : hostEvent e s = .next t) (hinv : Inv s) : Inv t := by
  obtain ⟨hwf, hsound, -⟩ := hinv
  rcases hostEvent_next e s t h with ⟨-, rfl⟩ | ⟨-, rfl⟩ |
    ⟨hr, ⟨off, -, ⟨d, rfl⟩ | ⟨b, rfl⟩⟩ | ⟨rfl, -⟩ | ⟨off, i, b, -, -, rfl⟩ | ⟨w, -, hc⟩⟩
  case inl => exact inv_of_atReset (atReset_assertReset s) rfl
  case inr.inr.inr.inr.inl => exact inv_of_released hr (Memory.wf_write s.buf i.val b hwf i.isLt) hsound
  case inr.inr.inr.inr.inr =>
    obtain ⟨-, hheld, -⟩ := command_keepsOwn hc
    exact inv_of_released (hheld.trans hr) (command_wf hc hwf) (command_faultRecordSound hc hsound)
  case inr.inl => exact inv_of_released rfl hwf hsound
  all_goals exact inv_of_released hr hwf hsound

end

/-- Settles O41: an idle step keeps the state, and every event keeps the invariant, which does not speak of the events to come. -/
theorem stepKeepsInv : Obligations.StepKeepsInv := by
  intro s t hinv h
  cases hs : s.host with
  | nil =>
    cases (step_idle s hs).symm.trans h
    exact hinv
  | cons e rest =>
    have htaken : Inv { s with host := rest } := hinv
    exact hostEvent_inv ((nextEvent_cons s e rest hs).symm.trans h) htaken

/-- Settles O42: the state after reset has its reset values and no BUF cell. -/
theorem resetHasInv : Obligations.ResetHasInv :=
  inv_of_atReset ⟨State.reg_reset, Status.word_reset, rfl, rfl, Memory.read_nil⟩ rfl

/-- Settles O24: of a command's updates exec_buf, exec_resultFields and O23 say what each leaves alone. -/
theorem commandFrame : Obligations.CommandFrame := by
  intro i s t h
  obtain ⟨hres, hsign, hnoroot⟩ := exec_resultFields h
  refine ⟨exec_keepsOwn h, exec_keepsRegs_but_dest h, fun henc a => ?_, fun a ha => ?_, fun heq hisneg => ?_,
    fun hdec => ?_, fun hsqrt => ?_, ?_⟩
  · obtain hbuf | ⟨ra, bs, rfl, -⟩ := exec_buf h
    · rw [hbuf]
    · exact absurd rfl henc
  · obtain hbuf | ⟨ra, bs, -, hlen, hbuf⟩ := exec_buf h
    · rw [hbuf]
    · rw [hbuf, Memory.read_writeBytes_ge bs s.buf 0 a (by omega)]
  · exact not_not.1 fun hne => (hres hne).elim heq hisneg
  · exact not_not.1 fun hne => hdec (hsign hne)
  · exact not_not.1 fun hne => hsqrt (hnoroot hne)
  · obtain ⟨r, rfl⟩ | hk := exec_raise_or_keepsFaultRecord h
    · exact .inr ⟨r.cause, r.freg, faultEntry_raise s r _⟩
    · exact .inl hk

/-- Settles O26: outside a command step the registers stay, and a command that changes one is performed and has it as its
destination. -/
theorem registersChangeOnlyByCommand : Obligations.RegistersChangeOnlyByCommand := by
  intro s t r h hr hne
  rcases step_keeps_or_command h hr with ⟨hregs, -, -⟩ | ⟨w, hw, hc⟩
  · exact absurd (hregs r) hne
  rcases command_next hc with ⟨-, rfl⟩ | ⟨hf, ⟨raised, rfl⟩ | ⟨i, hd, hx, hk⟩⟩
  · exact absurd rfl hne
  · exact absurd rfl hne
  · exact ⟨hf, hk, w, i, hw, hd, not_not.1 fun hdest => hne (exec_keepsRegs_but_dest hx r hdest)⟩

/-- Settles O27: a step changes BUF by the write of one byte, or by a command performed that exec_buf shows to be ENC. -/
theorem bufferChangesOnlyByWriteOrEnc : Obligations.BufferChangesOnlyByWriteOrEnc := by
  intro s t a h hr hne
  obtain hbuf | ⟨off, i, b, hw, hoff, hbuf⟩ | ⟨w, hw, hc⟩ := step_buf h hr
  · exact absurd (by rw [hbuf]) hne
  · rw [hbuf] at hne ⊢
    obtain rfl : a = i.val := not_not.1 fun ha => hne (Memory.read_write_ne s.buf i.val a b ha)
    exact ⟨i.isLt, .inl ⟨off, b, hw, hoff, Memory.read_write_self s.buf i.val b⟩⟩
  · rcases command_next hc with ⟨-, rfl⟩ | ⟨hf, ⟨raised, rfl⟩ | ⟨i, hd, hx, -⟩⟩
    · exact absurd rfl hne
    · exact absurd rfl hne
    · obtain hbuf | ⟨ra, bs, rfl, hlen, hbuf⟩ := exec_buf hx
      · exact absurd (by rw [hbuf]) hne
      · rw [hbuf] at hne
        refine ⟨?_, .inr ⟨hf, w, ra, hw, hd⟩⟩
        by_contra ha
        exact hne (Memory.read_writeBytes_ge bs s.buf 0 a (by omega))

/-- Settles O39: the cases of O38 ask of a state its marks alone. -/
theorem marksAloneDecideFaults : Obligations.MarksAloneDecideFaults := by
  intro w s s' ⟨hregs, hbuf⟩ hf hf'
  obtain ⟨t, h, hcase⟩ := faultPriority s w
  obtain ⟨t', h', hcase'⟩ := faultPriority s' w
  refine ⟨t, t', h, h', ?_⟩
  simp only [hf, hf', Bool.false_eq_true, if_false] at hcase hcase'
  cases hd : decode w with
  | error e =>
    simp only [hd] at hcase hcase'
    cases hcase
    cases hcase'
    exact ⟨rfl, fun _ => ⟨rfl, rfl, rfl⟩⟩
  | ok i =>
    have hmarks : (fun r => (s'.reg r).isNone) = fun r => (s.reg r).isNone := by
      funext r
      rw [← Option.not_isSome, ← Option.not_isSome, hregs r]
    simp only [hd, hmarks] at hcase hcase'
    cases hfirst : i.sources.find? fun r => (s.reg r).isNone with
    | some r =>
      simp only [hfirst] at hcase hcase'
      cases hcase
      cases hcase'
      exact ⟨rfl, fun _ => ⟨rfl, rfl, rfl⟩⟩
    | none =>
      simp only [hfirst] at hcase hcase'
      have hbytes (a : Nat) (ha : a < 32) : s.buf.read a = none ↔ s'.buf.read a = none := by
        rw [← Option.not_isSome_iff_eq_none, ← Option.not_isSome_iff_eq_none, hbuf a ha]
      obtain ⟨hop, ⟨a, ha, hn⟩, hentry⟩ | ⟨hall, hk⟩ := hcase
      · obtain ⟨-, -, hentry'⟩ | ⟨hall', -⟩ := hcase'
        · cases hentry
          cases hentry'
          exact ⟨rfl, fun _ => ⟨rfl, rfl, rfl⟩⟩
        · exact absurd ((hbytes a ha).1 hn) (hall' hop a ha)
      · obtain ⟨hop, ⟨a, ha, hn⟩, -⟩ | ⟨-, hk'⟩ := hcase'
        · exact absurd ((hbytes a ha).2 hn) (hall hop a ha)
        · obtain ⟨hfault, -⟩ := hk
          obtain ⟨hfault', -⟩ := hk'
          simp [hfault, hfault', hf, hf']

/-- Settles O46: a step takes the next event, and no event's rule touches the ones after it. -/
theorem stepTakesOneEvent : Obligations.StepTakesOneEvent := by
  intro s t e rest hs h
  exact hostEvent_host ((nextEvent_cons s e rest hs).symm.trans h)

end Sys2Proof.Machine
end

section
/-!
PROOFS of the statements on the constants, the exponents and the square root. R116, R142: LDK and POWQ58 are a constant and a power
written to rd. R102, R144, R145: q being prime, INV inverts by Fermat's theorem, and by Euler's criterion a square's candidate root
squares to it or to its negation, so that SQRT finds a root where there is one.
-/

namespace Sys2Proof.Machine

open Sys2Proof.Safety

section

variable {i : Instr} {s : State} {rd ra : Reg} {a : Fq}

/-- The seven assigned constants, by index (R30). -/
theorem constant_val {k : ConstIndex} (hk : k.val ≤ 6) :
    ∃ v : Fq, constant k = some v ∧ some v.val = [0, 1, 2, 4, 5, 8,
      19681161376707505956807079304988542015446066515923890162744021073123829784752][k.val]? := by
  match k, hk with
  | ⟨0, _⟩, _ | ⟨1, _⟩, _ | ⟨2, _⟩, _ | ⟨3, _⟩, _ | ⟨4, _⟩, _ | ⟨5, _⟩, _ => exact ⟨_, rfl, rfl⟩
  | ⟨6, _⟩, _ => exact ⟨sqrtm1, rfl, congrArg some sqrtm1_val⟩

theorem exec_ldk {k : ConstIndex} {v : Fq} (hk : constant k = some v) (rd : Reg) (s : State) :
    exec (.ldk rd k) s = .next (s.writeReg rd v) := by
  simp only [exec, execLdk, withConstant, hk]

/-- LDK's word is illegal where k is 7 or more, or where its rb field or the reserved field is not 0 (R75). -/
theorem illegalWhen_ldk : IllegalWhen 0x07 fun w => 7 ≤ (raField w).toNat ∨ rbField w ≠ 0 ∨ zeroField w ≠ 0 := by
  refine illegalWhen_of_illegalWord fun w hop hbad => ?_
  obtain hk | hrb | hzero := hbad
  · exact .inr (.inr (.inr ⟨hop, hk⟩))
  · exact .inr (.inr (.inl ⟨.ldk, hop.symm, by simpa [Op.form, Form.unusedZero] using hrb⟩))
  · exact .inr (.inl hzero)

theorem exec_sqrt_root {b : Fq} (ha : s.reg ra = some a) (hroot : squareRoot a = some b) :
    exec (.sqrt rd ra) s = .next ((s.writeReg rd b).setNoroot false) := by
  refine (withSource_some _ ra s _ a ha).trans ?_
  simp only [hroot]

/-- SQRT with its source written: a root goes to rd, or rd is cleared; NOROOT says which (R144). -/
theorem exec_sqrt_written (ha : s.reg ra = some a) :
    ∃ t, exec (.sqrt rd ra) s = .next t ∧ t.reg rd = squareRoot a ∧
      t.status = { s.status with noroot := (squareRoot a).isNone } ∧
      KeepsRegsBut rd s t ∧ KeepsBuf s t ∧ KeepsOwn s t ∧ t.fcmd = s.fcmd := by
  cases hroot : squareRoot a with
  | some b => exact ⟨_, exec_sqrt_root ha hroot, State.reg_writeReg_self s rd b, rfl, keepsRegsBut_writeReg s rd b,
      fun _ => rfl, ⟨rfl, rfl, rfl, rfl⟩, rfl⟩
  | none => exact ⟨_, exec_sqrt_noroot ha hroot, State.reg_clearReg_self s rd, rfl, keepsRegsBut_clearReg s rd,
      fun _ => rfl, ⟨rfl, rfl, rfl, rfl⟩, rfl⟩

/-- The candidate's alternative as an integer: beta times SQRTM1 (R144). -/
theorem alternative_val (b : Fq) : (mulq b sqrtm1).val =
    b.val * 19681161376707505956807079304988542015446066515923890162744021073123829784752 % q := by
  rw [mulq_val, sqrtm1_val]

/-- Euler's criterion with the exponent halved: of a square a the power 2k + 1, where q = 4(2k + 1) + 1, is 1 or -1, so the
candidate a^(k + 1) squares to a or to -a. -/
theorem candidate_sq_of_isSquare {p k : Nat} [Fact p.Prime] (hp : p / 2 = 2 * (2 * k + 1)) {a : ZMod p} (ha : IsSquare a) :
    a * a ^ k * (a * a ^ k) = a ∨ a * a ^ k * (a * a ^ k) = -a := by
  have hfactor : a * a ^ k * (a * a ^ k) = a * a ^ (2 * k + 1) := by ring
  by_cases h0 : a = 0
  · simp [h0]
  · have hsq : a ^ (2 * k + 1) * a ^ (2 * k + 1) = 1 := by
      rw [← pow_add, ← two_mul, ← hp]
      exact (ZMod.euler_criterion p h0).1 ha
    rw [hfactor]
    obtain h | h := mul_self_eq_one_iff.1 hsq
    · exact .inl (by rw [h, mul_one])
    · exact .inr (by rw [h, mul_neg_one])

theorem q_half : q / 2 = 2 * (2 * sqrtExponent + 1) := by decide

/-- A residue mod q as an element of the prime field. -/
theorem mod_eq_iff_cast (m : Nat) {n : Nat} (h : n < q) : m % q = n ↔ (m : ZMod q) = n := by
  rw [ZMod.natCast_eq_natCast_iff', Nat.mod_eq_of_lt h]

/-- SQRT answers a root of every square (R145). -/
theorem squareRoot_isSome_of_sq {r : Nat} (hr : r * r % q = a.val) : (squareRoot a).isSome := by
  have : Fact q.Prime := ⟨prime_q⟩
  have hsquare : IsSquare (a.val : ZMod q) := ⟨r, by rw [← (mod_eq_iff_cast _ a.isLt).1 hr, Nat.cast_mul]⟩
  have hbeta : ((rootCandidate a).val : ZMod q) = a.val * a.val ^ sqrtExponent := by
    rw [rootCandidate_val, ZMod.natCast_mod, Nat.cast_mul, Nat.cast_pow]
  obtain ⟨-, h⟩ | ⟨-, -, h⟩ | ⟨hne, hneg, -⟩ := squareRoot_cases a
  · simp [h]
  · simp [h]
  · exfalso
    obtain h | h := candidate_sq_of_isSquare q_half hsquare
    · exact hne ((mod_eq_iff_cast _ a.isLt).2 (by rw [Nat.cast_mul, hbeta, h]))
    · refine hneg ((mod_eq_iff_cast _ (Nat.mod_lt _ q_pos)).2 ?_)
      rw [Nat.cast_mul, hbeta, h, ZMod.natCast_mod, Nat.cast_sub a.isLt.le, ZMod.natCast_self, zero_sub]

/-- A value not 0 times its power q - 2 is 1 mod q, by Fermat's theorem (R102). -/
theorem mul_powq_invExponent (h : a.val ≠ 0) : a.val * (powq a invExponent).val % q = 1 := by
  have : Fact q.Prime := ⟨prime_q⟩
  have hne : (a.val : ZMod q) ≠ 0 := by
    rw [Ne, ZMod.natCast_eq_zero_iff]
    exact Nat.not_dvd_of_pos_of_lt (Nat.pos_of_ne_zero h) a.isLt
  have hexp : q - 1 = invExponent + 1 := by decide
  rw [powq_val a _ invExponent_lt, Nat.mul_mod_mod, ← pow_succ', ← hexp,
    ← natCast_pow_eq_one_iff q a.val _ prime_q.one_lt]
  exact ZMod.pow_card_sub_one_eq_one hne

theorem powq_eq_zero {e : Nat} (he : 0 < e) (hlt : e < 2 ^ 256) (h : a.val = 0) : (powq a e).val = 0 := by
  rw [powq_val a e hlt, h, Nat.zero_pow he, Nat.zero_mod]

theorem exec_mul_written {rb : Reg} {b : Fq} (ha : s.reg ra = some a) (hb : s.reg rb = some b) :
    exec (.mul rd ra rb) s = .next (s.writeReg rd (mulq a b)) :=
  withSources_some _ ra rb s _ a b ha hb

theorem exec_inv_written (ha : s.reg ra = some a) : exec (.inv rd ra) s = .next (s.writeReg rd (powq a invExponent)) :=
  withSource_some _ ra s _ a ha

end

/-- Settles O7: an assigned index's constant is the one update, and the text and the word are those of a well-formed LDK. -/
theorem ldkLoadsConstant : Obligations.LdkLoadsConstant := by
  refine ⟨fun s rd k hk => ?_, fun rd k hk => ?_, illegalWhen_ldk⟩
  · obtain ⟨v, hv, hval⟩ := constant_val hk
    exact ⟨v, writesOnly_of_exec (exec_ldk hv rd s), hval⟩
  · exact encoding_of_packWord (i := .ldk rd k) (rb := 0) (decide_eq_true hk) rfl

/-- Settles O9: POWQ58 is the two-register rule of the power (q - 5)/8. -/
theorem powq58WritesPower : Obligations.Powq58WritesPower :=
  twoRegisterRule (o := .powq58) rfl (fun a => powq a sqrtExponent) (fun a => powq_val_int a sqrtExponent_lt) (fun _ _ _ => rfl)
    fun rd ra => encoding_of_packWord (i := .powq58 rd ra) (rb := 0) rfl rfl

/-- Settles O10: by the three ways of squareRoot_cases, with the candidate and its alternative written as integers. -/
theorem sqrtWritesCandidateOrAlternative : Obligations.SqrtWritesCandidateOrAlternative := by
  intro s rd ra a ha
  obtain ⟨t, h, hreg, hstatus, hregs, hbuf, hown, hfcmd⟩ := exec_sqrt_written (rd := rd) ha
  refine ⟨t, h, hregs, hbuf, hown, hfcmd, ?_⟩
  rw [← sqrtExponent, ← rootCandidate_val]
  intro beta alt
  simp only [beta, alt, ← alternative_val]
  obtain ⟨hsq, hroot⟩ | ⟨hne, hneg, hroot⟩ | ⟨hne, hnneg, hroot⟩ := squareRoot_cases a
  · rw [if_pos hsq, hreg, hstatus, hroot]
    exact ⟨rfl, rfl⟩
  · rw [if_neg hne, if_pos hneg, hreg, hstatus, hroot]
    exact ⟨rfl, rfl⟩
  · rw [if_neg hne, if_neg hnneg, hreg, hstatus, hroot]
    exact ⟨rfl, rfl⟩

/-- Settles O12: SQRT reads its source as INV does and is of form RR. -/
theorem sqrtEncodingAndFaults : Obligations.SqrtEncodingAndFaults := by
  refine ⟨fun s rd ra ha => ?_, fun rd ra => ?_, illegalWhen_rr (o := .sqrt) rfl⟩
  · exact faultsOn_of_exec (withSource_none _ ra s _ ha)
  · exact encoding_of_packWord (i := .sqrt rd ra) (rb := 0) rfl rfl

/-- Settles O13: an answered root squares to the source, and a square has an answered root. -/
theorem sqrtSoundAndComplete : Obligations.SqrtSoundAndComplete := by
  intro s rd ra a ha
  obtain ⟨t, h, hreg, hstatus, -⟩ := exec_sqrt_written (rd := rd) ha
  refine ⟨t, h, ?_⟩
  rw [hreg, hstatus]
  cases hroot : squareRoot a with
  | some b => exact ⟨⟨fun _ => ⟨b.val, squareRoot_sq hroot⟩, fun _ => rfl⟩, fun _ => ⟨b, rfl, squareRoot_sq hroot⟩, nofun⟩
  | none =>
    refine ⟨⟨nofun, fun ⟨r, hr⟩ => ?_⟩, nofun, fun _ => rfl⟩
    have := squareRoot_isSome_of_sq hr
    simp [hroot] at this

/-- Settles O20: MUL reads the source again, since rd is another register, and the inverse INV wrote. -/
theorem invIsInverse : Obligations.InvIsInverse := by
  intro s rd ra rp a ha hne
  have hra : (s.writeReg rd (powq a invExponent)).reg ra = some a := by rw [State.reg_writeReg_ne _ _ _ _ hne.symm, ha]
  refine ⟨_, _, exec_inv_written ha, exec_mul_written hra (State.reg_writeReg_self s rd _), fun hnz => ?_, fun hz => ?_⟩
  · rw [State.reg_writeReg_self, Option.map_some, mulq_val, mul_powq_invExponent hnz]
  · rw [State.reg_writeReg_self, Option.map_some, powq_eq_zero (by decide) invExponent_lt hz]

end Sys2Proof.Machine
end

section
/-!
PROOFS of the statements on equality, negation and the byte codec. R170: the 32 canonical bytes tell values apart. R114: q is odd,
so q - a has the other parity than a. R181, R184: BUF's bytes and its value below 2^256 determine each other.
-/

namespace Sys2Proof.Machine

open Sys2Proof.Safety

section

variable {s : State} {rd ra rb : Reg} {a b : Fq} {B B' : Nat → Byte}

theorem q_lt_bytes : q < 256 ^ 32 := by decide

/-- EQ's comparison of the canonical bytes is the comparison of the values (R170). -/
theorem equalFlag_eq (a b : Fq) : equalFlag a b = decide (a.val = b.val) := by
  have hlen : (leBytes 32 a.val).length = (leBytes 32 b.val).length := by simp
  have hinj : leBytes 32 a.val = leBytes 32 b.val ↔ a.val = b.val := by
    refine ⟨fun h => ?_, congrArg (leBytes 32)⟩
    rw [← leValue_leBytes 32 a.val (a.isLt.trans q_lt_bytes), h, leValue_leBytes 32 b.val (b.isLt.trans q_lt_bytes)]
  rw [equalFlag, Bool.eq_iff_iff, beq_iff_eq, decide_eq_true_iff, diffBytes_eq_zero_iff _ _ hlen, hinj]

/-- Of form PP the rd field is unused (R72, R75). -/
theorem illegalWhen_pp {o : Op} (hform : o.form = .pp) : IllegalWhen o.code fun w => rdField w ≠ 0 ∨ zeroField w ≠ 0 := by
  intro s w hf hop hbad
  have hunused : o.form.unusedZero w = false ↔ rdField w ≠ 0 := by simp [hform, Form.unusedZero]
  exact illegalWhen_unused o s w hf hop (hbad.imp_left hunused.2)

theorem exec_eq_written (ha : s.reg ra = some a) (hb : s.reg rb = some b) :
    exec (.eq ra rb) s = .next (s.setRes (decide (a.val = b.val))) := by
  rw [← equalFlag_eq]
  exact withSources_some _ ra rb s _ a b ha hb

theorem exec_neg_written (ha : s.reg ra = some a) : exec (.neg rd ra) s = .next (s.writeReg rd (modq (0 - toInt a))) :=
  withSource_some _ ra s _ a ha

/-- The negation of 0 is 0, that of another value is q less the value (R114). -/
theorem neg_val (a : Fq) : (modq (0 - toInt a)).val = if a.val = 0 then 0 else q - a.val := by
  have hcast : (modq (0 - toInt a)).val = (modq ((q : Int) - toInt a)).val := by
    apply Int.natCast_inj.1
    rw [modq_val, modq_val, zero_sub, sub_eq_add_neg, Int.add_emod_left]
  rw [hcast, negq_val]
  have := a.isLt
  split
  · next h => rw [h, Nat.sub_zero, Nat.mod_self]
  · exact Nat.mod_eq_of_lt (by omega)

theorem modq_neg_neg (a : Fq) : modq (0 - toInt (modq (0 - toInt a))) = a := by
  apply Fin.ext
  have := a.isLt
  rw [neg_val, neg_val]
  by_cases h : a.val = 0
  · simp [h]
  · rw [if_neg h, if_neg (by omega)]
    omega

/-- Negation flips the parity of every value but 0, since q is odd (R114, R171). -/
theorem neg_odd_iff (h : a.val ≠ 0) : (modq (0 - toInt a)).val % 2 = 1 ↔ ¬ a.val % 2 = 1 := by
  have hodd : q % 2 = 1 := by decide
  have := a.isLt
  rw [neg_val, if_neg h]
  omega

/-- Byte i of a value, least significant first (R11). -/
def valueByte (v i : Nat) : Byte := BitVec.ofNat 8 (v / 256 ^ i)

/-- LEbytes as a map over the byte numbers (R11). -/
theorem leBytes_eq_map (n v : Nat) : leBytes n v = (List.range n).map (valueByte v) := by
  apply List.ext_getElem?
  intro i
  by_cases hi : i < n
  · rw [leBytes_getElem? n v i hi, List.getElem?_map, List.getElem?_range hi]
    rfl
  · simp [hi]

/-- The bytes of a value below 2^256 have that value (R11). -/
theorem bufferValue_valueByte {v : Nat} (h : v < 256 ^ 32) : bufferValue (valueByte v) = v := by
  rw [← leValue_buffer, ← leBytes_eq_map, leValue_leBytes 32 v h]

/-- The bytes of BUF's value are BUF's bytes. -/
theorem valueByte_bufferValue (B : Nat → Byte) {i : Nat} (hi : i < 32) : valueByte (bufferValue B) i = B i := by
  have hbytes : leBytes 32 (bufferValue B) = (List.range 32).map B := by
    have := leBytes_leValue ((List.range 32).map B)
    rwa [List.length_map, List.length_range, leValue_buffer] at this
  rw [leBytes_eq_map] at hbytes
  exact List.map_inj_left.1 hbytes i (List.mem_range.2 hi)

/-- After ENC of a value BUF holds its bytes (R182). -/
theorem bufferHolds_encoded (s : State) (v : Nat) : BufferHolds (s.writeBufBytes 0 (leBytes 32 v)) (valueByte v) :=
  fun i hi => State.read_encoded s v i hi

/-- A state's BUF has one value. -/
theorem bufferValue_eq_of_bufferHolds (h : BufferHolds s B) (h' : BufferHolds s B') : bufferValue B = bufferValue B' :=
  Finset.sum_congr rfl fun i hi => by
    have hi : i < 32 := Finset.mem_range.1 hi
    have hbyte : some (B i) = some (B' i) := (h i hi).symm.trans (h' i hi)
    rw [Option.some_inj.1 hbyte]

/-- Decoding a canonical value loses nothing: it is below 2^255 and below q (R180). -/
theorem mod_canonical {v : Nat} (h : v < q) : v % 2 ^ 255 % q = v := by
  rw [Nat.mod_eq_of_lt (h.trans q_lt), Nat.mod_eq_of_lt h]

theorem signFlag_canonical {v : Nat} (h : v < q) : signFlag v = false :=
  Nat.testBit_lt_two_pow (h.trans q_lt)

end

/-- Settles O16: by the answers of EQ, whose one update with both sources written is RES. -/
theorem eqComparesValues : Obligations.EqComparesValues := by
  refine ⟨fun s ra rb a b ha hb => ?_, fun s ra rb ha => ?_, fun s ra rb ha hb => ?_, fun ra rb => ?_,
    illegalWhen_pp (o := .eq) rfl⟩
  · exact ⟨_, exec_eq_written ha hb, rfl, fun _ => rfl, rfl, fun _ => rfl, rfl, rfl, rfl, rfl⟩
  · exact faultsOn_of_exec (withSources_none_left _ _ ha)
  · exact faultsOn_of_exec (withSources_none_right _ _ ha hb)
  · exact encoding_of_packWord (i := .eq ra rb) (rd := 0) rfl rfl

/-- Settles O21: both NEGs and both ISNEGs read written sources, so modq_neg_neg and the parity law say what they write. -/
theorem negFlipsParity : Obligations.NegFlipsParity := by
  intro s rd re ra a ha
  have hrd := State.reg_writeReg_self s rd (modq (0 - toInt a))
  refine ⟨_, _, _, _, exec_neg_written ha, exec_neg_written hrd, ?_, exec_isneg_written ha, exec_isneg_written hrd,
    fun hnz => ?_, fun hz => ?_⟩
  · rw [State.reg_writeReg_self, modq_neg_neg]
  · simp only [State.setRes_status, neg_odd_iff hnz, decide_not]
  · rw [State.setRes_status, neg_val, if_pos hz]
    rfl

/-- Settles O18: DEC reads the bytes ENC wrote, whose value is the canonical one. -/
theorem encThenDecRestoresValue : Obligations.EncThenDecRestoresValue := by
  intro s ra rd a ha
  refine ⟨_, _, exec_enc_written ha, exec_dec_written (bufferHolds_encoded s a.val), ?_, topByte_getLsbD_seven a⟩
  rw [State.reg_writeReg_self, bufferValue_valueByte (a.isLt.trans q_lt_bytes)]
  exact congrArg some (Fin.ext ((modq_val_nat _).trans (mod_canonical a.isLt)))

/-- Settles O19: ENC writes the bytes of DEC's canonical value, which is BUF's own value exactly where that is below q. -/
theorem decThenEncCanonicalizes : Obligations.DecThenEncCanonicalizes := by
  intro s rd B hB
  have hcanonical : bufferValue B % 2 ^ 255 % q < q := Nat.mod_lt _ q_pos
  refine ⟨_, _, exec_dec_written hB, exec_enc_written (State.reg_writeReg_self _ rd _), ?_⟩
  rw [modq_val_nat]
  refine ⟨fun i hi => ?_, fun hlt => ⟨fun i hi => ?_, ?_⟩, fun hge hsame => ?_⟩
  · rw [State.read_encoded _ _ i hi, Option.map_some, BitVec.toNat_ofNat]
  · rw [mod_canonical hlt, bufferHolds_encoded _ _ i hi, valueByte_bufferValue B hi]
  · exact (signFlag_bufferValue B).symm.trans (signFlag_canonical hlt)
  · have hvalue := bufferValue_eq_of_bufferHolds (bufferHolds_encoded _ _) hsame
    rw [bufferValue_valueByte (hcanonical.trans q_lt_bytes)] at hvalue
    omega

end Sys2Proof.Machine
end

section
/-!
PROOFS of the statements on the host's events. R38, R51, R55, R56, R60, R230: a step is its event's rule at the place the offset
names; with reset held no access has one, and a wrong width or alignment names no place.
-/

namespace Sys2Proof.Machine

open Sys2Proof.Safety

section

variable {e : HostEvent} {rest : List HostEvent} {s t : State} {off : Fin 64} {i : Fin 32} {b : Byte}

/-- A read of any width changes no state of the FAU (R58). -/
theorem hostEvent_read (he : e = .read8 off ∨ e = .read16 off ∨ e = .read32 off) (h : hostEvent e s = .next t) :
    t.f = s.f ∧ t.status = s.status ∧ t.fcmd = s.fcmd ∧ t.buf = s.buf ∧ t.resetHeld = s.resetHeld := by
  rcases hostEvent_next e s t h with ⟨rfl, -⟩ | ⟨rfl, -⟩ |
    ⟨-, ⟨off, -, ⟨d, rfl⟩ | ⟨b, rfl⟩⟩ | ⟨rfl, -⟩ | ⟨off, i, b, rfl, -, -⟩ | ⟨w, rfl, -⟩⟩
  case inr.inr.inl.inl | inr.inr.inl.inr | inr.inr.inr.inl => exact ⟨rfl, rfl, rfl, rfl, rfl⟩
  all_goals simp at he

theorem step_write8_buf (hr : s.resetHeld = false) (hoff : off.val = 32 + i.val) (hs : s.host = .write8 off b :: rest) :
    step s = .next ({ s with host := rest }.writeBuf i.val b) :=
  (step_access hr hs fun _ => rfl).trans (hostWrite8_buf _ b hoff)

theorem step_read8_written (hr : s.resetHeld = false) (hoff : off.val = 32 + i.val) (hs : s.host = .read8 off :: rest)
    (hb : s.buf.read i = some b) : step s = .next ({ s with host := rest }.returns (.byte b)) :=
  (step_access hr hs fun _ => rfl).trans (hostRead8_written (s := { s with host := rest }) hoff hb)

theorem step_read8_unwritten (hr : s.resetHeld = false) (hoff : off.val = 32 + i.val) (hs : s.host = .read8 off :: rest)
    (hb : s.buf.read i = none) :
    step s = .next { s with host := rest, readData := some (.byte (Config.freeByte s.draws)), draws := s.draws + 1 } :=
  (step_access hr hs fun _ => rfl).trans (hostRead8_unwritten (s := { s with host := rest }) hoff hb)

theorem bytePlace_below (h : off.val < 0x0C) : bytePlace off = none := by
  rw [bytePlace, dif_neg (by omega), if_neg (by omega)]

theorem wordPlace_none (h : 0x20 ≤ off.val ∨ (off.val % 4 ≠ 0 ∧ (off.val < 0x0C ∨ 0x1C < off.val))) :
    wordPlace off = none := by
  rw [wordPlace, if_neg (by omega), if_neg (by omega), if_neg (by omega), if_neg (by omega)]

/-- An access that names no place of the window is refused (R56). -/
theorem hostEvent_refused (hr : s.resetHeld = false)
    (he : (∃ h, e = .read16 off ∨ e = .write16 off h) ∨
      (bytePlace off = none ∧ ∃ b, e = .read8 off ∨ e = .write8 off b) ∨
      (wordPlace off = none ∧ ∃ w, e = .read32 off ∨ e = .write32 off w)) :
    hostEvent e s = .refused .hostAccess := by
  have released (go : State → Answer) : whenReleased s go = go s := whenReleased_released go hr
  obtain ⟨h, rfl | rfl⟩ | ⟨hp, b, rfl | rfl⟩ | ⟨hp, w, rfl | rfl⟩ := he
  · exact released fun _ => .refused .hostAccess
  · exact released fun _ => .refused .hostAccess
  · exact (released (hostRead8 off)).trans (by simp [hostRead8, hp])
  · exact (released (hostWrite8 off b)).trans (by simp [hostWrite8, hp])
  · exact (released (hostRead32 off)).trans (by simp [hostRead32, hp])
  · exact (released (hostWrite32 off w)).trans (by simp [hostWrite32, hp])

theorem hostEvent_held (hr : s.resetHeld = true) (he : ∀ l, e ≠ .resetLine l) : hostEvent e s = .fault .resetHeld := by
  cases e with
  | resetLine l => exact absurd rfl (he l)
  | _ => exact if_pos hr

/-- Concatenated bits as a number: the left part above the n bits of the right one. -/
theorem toNat_append_eq_add {m n : Nat} (x : BitVec m) (y : BitVec n) : (x ++ y).toNat = x.toNat * 2 ^ n + y.toNat := by
  rw [BitVec.toNat_append, ← Nat.shiftLeft_add_eq_or_of_lt y.isLt, Nat.shiftLeft_eq]

/-- STATUS as a word's number, field by field (R32). -/
theorem Status.word_toNat (t : Status) :
    t.word.toNat = t.res.toNat + 2 * t.sign.toNat + 4 * t.noroot.toNat + 8 * t.fault.toNat + 16 * t.fcause.code.toNat
      + 256 * t.freg.val := by
  have hfreg : (fieldOf t.freg).toNat = t.freg.val := rfl
  show ((0#20 ++ fieldOf t.freg ++ t.fcause.code ++ BitVec.ofBool t.fault ++ BitVec.ofBool t.noroot ++ BitVec.ofBool t.sign
    ++ BitVec.ofBool t.res : BitVec (20 + 4 + 4 + 1 + 1 + 1 + 1))).toNat = _
  simp only [toNat_append_eq_add, BitVec.toNat_ofBool, hfreg, BitVec.toNat_ofNat]
  omega

end

/-- Settles O44: assertion writes the reset values, and the release of the line leaves them. -/
theorem releasedResetIsReady : Obligations.ReleasedResetIsReady := by
  intro s rest hs
  refine ⟨_, _, step_assertReset hs, nextEvent_cons _ (.resetLine false) rest rfl, ?_, rfl, rfl⟩
  exact atReset_assertReset { s with host := rest }

/-- Settles O45: with the list of events empty, step is the idle case of nextEvent. -/
theorem idleRetainsState : Obligations.IdleRetainsState := step_idle

/-- Settles O47: the write marks the byte, and the read finds it. -/
theorem bufferWriteThenRead : Obligations.BufferWriteThenRead := by
  intro s i off b rest hr hoff hs
  have hwritten := Memory.read_write_self s.buf i.val b
  refine ⟨_, _, step_write8_buf hr hoff hs, step_read8_written hr hoff rfl hwritten, rfl, rfl, rfl, hwritten,
    fun a ha => ?_, fun _ => rfl, rfl, rfl, rfl⟩
  exact Memory.read_write_ne s.buf i.val a b ha

/-- Settles O48: the event taken is the read, and hostEvent_read says what it leaves. -/
theorem readsHaveNoSideEffect : Obligations.ReadsHaveNoSideEffect := by
  intro s t off h he
  cases hs : s.host with
  | nil => simp [hs] at he
  | cons e rest =>
    have hread : e = .read8 off ∨ e = .read16 off ∨ e = .read32 off := by simpa [hs] using he
    exact hostEvent_read (s := { s with host := rest }) hread ((nextEvent_cons s e rest hs).symm.trans h)

/-- Settles O49: the first read advances the counter and leaves the byte unwritten, so the second one draws again. -/
theorem unwrittenByteReadsFree : Obligations.UnwrittenByteReadsFree := by
  intro s i off rest hr hoff hb hs
  exact ⟨_, _, step_read8_unwritten hr hoff hs hb, step_read8_unwritten hr hoff rfl hb, rfl, rfl, rfl, rfl⟩

/-- Settles O50: each offset names its register, whose read and write rules are those of R32, R37 and R38. -/
theorem registerPorts : Obligations.RegisterPorts := by
  intro s rest x hr
  refine ⟨fun hs => ?_, fun hs => ?_, fun hs => ?_, fun hs => ?_, fun hs => ?_⟩
  all_goals exact step_access hr hs fun _ => rfl

/-- Settles O51: the word's number with FCAUSE's code at each cause. -/
theorem statusLayout : Obligations.StatusLayout := by
  intro t
  rw [Status.word_toNat]
  cases t.fcause <;> rfl

/-- Settles O53: each of R56's accesses is 16 bits wide or names no place. -/
theorem wrongAccessesRefused : Obligations.WrongAccessesRefused := by
  intro s e rest off hr hs he
  exact (nextEvent_cons s e rest hs).trans
    (hostEvent_refused hr (he.imp_right (Or.imp (And.imp_left bytePlace_below) (And.imp_left wordPlace_none))))

/-- Settles O54: FAU_BASE is 64 times a block number, and an offset is what an address exceeds it by. -/
theorem windowAtBase : Obligations.WindowAtBase := by
  refine ⟨Nat.mul_mod_right 64 _, fun off => ?_, fun a ha => dif_neg (by omega)⟩
  rw [windowOffset, dif_pos (by omega)]
  exact congrArg some (Fin.ext (Nat.add_sub_cancel_left _ _))

/-- Settles O55: every event but a level of the reset line is an access. -/
theorem heldResetStopsAccesses : Obligations.HeldResetStopsAccesses := by
  intro s e rest hr hs he
  exact (nextEvent_cons s e rest hs).trans (hostEvent_held hr he)

end Sys2Proof.Machine
end
